-- ==== Sys2Proof/Config.lean ====
section
/-! DEFINITION. The configuration of the hardware (00_scope.md R6): the widths and counts that one machine
fixes, each in this one place. The inputs of reset, which the host supplies (70_reset_and_hazards.md R200), are
`Config.Params` in Machine/State.lean. No rule of the spec leaves a result's value open, so there is no free
value. -/

namespace Sys2Proof

/-- `XLEN`, the width in bits of a register and of a memory cell (R6, U10; the spec's decision D1, log 4). No
definition and no statement but this one names the number: another width is another value here. The spec's
rules hold for every `XLEN >= 1`. It is fixed for a machine and no input of reset (R200, R207). -/
abbrev Config.XLEN : Nat := 32

/-- `NREGS`, the number of general registers: 32, fixed (R6, R21). -/
abbrev Config.NREGS : Nat := 32

/-- `CNTW`, the width of the hit and miss counters (R6, R38; D12, log 13). -/
abbrev Config.CNTW : Nat := 64

/-- What `N` must stay below: `2 ^ PCW` with `PCW` = 32 (R6, R28; D14, log 10). -/
def Config.programBound : Nat := 2 ^ 32

end Sys2Proof
end

