-- ==== Sys2Proof/Word.lean ====
section
/-! DEFINITION. The machine's data types of fixed width: registers and cells, instruction words,
counters (00_scope.md R6, R7). -/

namespace Sys2Proof

/-- The contents of a register or of a memory cell: `XLEN` bits (R6; D24 for the cell; log 4). `u(v)` is
`v.toNat`, `s(v)` is `v.toInt` (R7). -/
abbrev Word := BitVec Config.XLEN

/-- One word of the instruction store at the binary level: `ILEN` = 32 bits, the width that the formats of R92
fill (R6, R91; D5, log 8). It has nothing to do with `XLEN`. -/
abbrev InstrWord := BitVec 32

/-- A hit or miss counter: `CNTW` bits (R6, R38). -/
abbrev Counter := BitVec Config.CNTW

end Sys2Proof
end

