-- ==== Sys2Proof/Syntax.lean ====
section
/-! DEFINITION. The six instructions (30_encoding.md R90), as abstract values. -/

namespace Sys2Proof

/-- The closed set of instructions (R90). Register indices, addresses and targets are natural numbers
with no upper bound here: the bounds are checked when the instruction executes (R90, R124). The operands
stand in the order the spec writes them (R9). -/
inductive Instr where
  /-- `Add(d, s1, s2)` (R141). -/
  | add (d s1 s2 : Nat)
  /-- `Sub(d, s1, s2)` (R142). -/
  | sub (d s1 s2 : Nat)
  /-- `Load(d, a)` (R152). -/
  | load (d a : Nat)
  /-- `Store(a, s)`: address first, register second (R153). -/
  | store (a s : Nat)
  /-- `Jump(t)` (R161). -/
  | jump (t : Nat)
  /-- `Halt` (R163). -/
  | halt
  deriving DecidableEq, Repr

/-- The instruction store (20_memory.md R52), at one of the spec's two levels of description (00_scope.md
R10): abstract instruction values, or 32-bit words that the decoder reads (R91). Log 9. -/
inductive Program where
  /-- The abstract level: instruction `k` of the list is at `pc = k`. -/
  | instrs (is : List Instr)
  /-- The binary level: word `k` of the list is at `pc = k`. -/
  | words (ws : List InstrWord)
  deriving DecidableEq, Repr

/-- `N`, the number of instructions in the store (R6). -/
def Program.length : Program → Nat
  | .instrs is => is.length
  | .words ws => ws.length

end Sys2Proof
end

