-- ==== Sys2Proof/WellFormed.lean ====
section
/-! DEFINITION. Which instructions have a binary form (30_encoding.md R102: `encode` is "defined when"
every field fits its encoding's width). An instruction that is not well-formed in this sense is still an
instruction of the abstract level, and executes there (R90, 93_implementation_defined.md U17). -/

namespace Sys2Proof

/-- The fields of `i` fit the widths of formats R, M, J and Z (R92 to R96, R102), as a test. -/
def wellFormed (i : Instr) : Bool :=
  match i with
  | .add d s1 s2 => decide (d ≤ 255) && decide (s1 ≤ 255) && decide (s2 ≤ 255)
  | .sub d s1 s2 => decide (d ≤ 255) && decide (s1 ≤ 255) && decide (s2 ≤ 255)
  | .load d a => decide (d ≤ 255) && decide (a ≤ 65535)
  | .store a s => decide (s ≤ 255) && decide (a ≤ 65535)
  | .jump t => decide (t ≤ 16777215)
  | .halt => true

/-- `i` has a binary form (R102). -/
abbrev WellFormed (i : Instr) : Prop := wellFormed i = true

end Sys2Proof
end

