-- ==== Sys2Proof/Decode.lean ====
section
/-! DEFINITION. The decoder and the encoder of the binary level (30_encoding.md R92 to R102; all of it is
the spec's own decision D5, D6, D7, log 8). -/

namespace Sys2Proof

/-- Why a word is illegal (R99). -/
inductive IllegalWord where
  /-- The opcode byte is `0x00` or `0x07` to `0xFF`. -/
  | unassignedOpcode
  /-- The opcode byte is `0x06` and some bit of 23 to 0 is set. -/
  | haltLowBitsSet
  deriving DecidableEq, Repr

/-- `u(w[lo+len-1 : lo])`: a contiguous run of `len` bits read as an unsigned number (R7, R96). -/
def field (w : InstrWord) (lo len : Nat) : Nat :=
  (w.extractLsb' lo len).toNat

/-- The decoder: a total function from words to instructions or the verdict illegal (R98). It reads
nothing but the word. -/
def decode (w : InstrWord) : Except IllegalWord Instr :=
  match field w 24 8 with
  | 0x01 => .ok (.add (field w 16 8) (field w 8 8) (field w 0 8))
  | 0x02 => .ok (.sub (field w 16 8) (field w 8 8) (field w 0 8))
  | 0x03 => .ok (.load (field w 16 8) (field w 0 16))
  | 0x04 => .ok (.store (field w 0 16) (field w 16 8))
  | 0x05 => .ok (.jump (field w 0 24))
  | 0x06 => if field w 0 24 = 0 then .ok .halt else .error .haltLowBitsSet
  | _ => .error .unassignedOpcode

/-- The opcode map of R97 as (mask, match) pairs, in its order. The decoder does not use it; that the two
agree is a statement (log 8). -/
def opcodeRows : List (InstrWord × InstrWord) :=
  [(0xFF000000#32, 0x01000000#32), (0xFF000000#32, 0x02000000#32), (0xFF000000#32, 0x03000000#32),
   (0xFF000000#32, 0x04000000#32), (0xFF000000#32, 0x05000000#32), (0xFFFFFFFF#32, 0x06000000#32)]

/-- Format R (R92, R93): opcode, `d`, `s1`, `s2`. -/
def formatR (op : BitVec 8) (d s1 s2 : Nat) : InstrWord :=
  op ++ BitVec.ofNat 8 d ++ BitVec.ofNat 8 s1 ++ BitVec.ofNat 8 s2

/-- Format M (R92, R94): opcode, `r`, `a`. -/
def formatM (op : BitVec 8) (r a : Nat) : InstrWord :=
  op ++ BitVec.ofNat 8 r ++ BitVec.ofNat 16 a

/-- Format J (R92, R95): opcode, `t`. -/
def formatJ (op : BitVec 8) (t : Nat) : InstrWord :=
  op ++ BitVec.ofNat 24 t

/-- Format Z (R92, R96): opcode, zero. -/
def formatZ (op : BitVec 8) : InstrWord :=
  op ++ 0#24

/-- The word of an instruction whose fields fit (the right sides of R102's table). -/
def encodeWord : Instr → InstrWord
  | .add d s1 s2 => formatR 0x01#8 d s1 s2
  | .sub d s1 s2 => formatR 0x02#8 d s1 s2
  | .load d a => formatM 0x03#8 d a
  | .store a s => formatM 0x04#8 s a
  | .jump t => formatJ 0x05#8 t
  | .halt => formatZ 0x06#8

/-- The encoder (R102): defined exactly on the well-formed instructions. -/
def encode (i : Instr) : Option InstrWord :=
  if WellFormed i then some (encodeWord i) else none

/-- The word whose `nbits` bits are `w`, numbered as spec/opcode_table.json numbers them, which is how R91
numbers them; bits above `nbits` are 0. A word is not made of bytes here (R55), so there is no byte order
to lay out (log 25). -/
def tableWord (nbits w : Nat) : InstrWord :=
  BitVec.ofNat 32 (w % 2 ^ nbits)

/-- The instruction the decoder reads from that word. -/
def decodeTableWord (nbits w : Nat) : Option Instr :=
  match decode (tableWord nbits w) with
  | .ok i => some i
  | .error _ => none

end Sys2Proof
end

