-- ==== Sys2Proof/Machine/State.lean ====
section
/-! DEFINITION. The machine's state (10_state.md R20, R39), its reset (70_reset_and_hazards.md R201), and
the reasons a step can stop (60_exceptions.md). -/

namespace Sys2Proof

/-- The inputs of reset (70_reset_and_hazards.md R200): `MEMLEN`, `C` and the program `I[0..N-1]`. Any
natural numbers, 0 included, with no relation between them (R6, D15; log 22). -/
structure Config.Params where
  /-- `MEMLEN`, the number of cells of Memory. -/
  memLen : Nat
  /-- `C`, the number of cache slots. -/
  capacity : Nat
  /-- The instruction sequence. -/
  program : Program
  deriving DecidableEq, Repr

/-- The launch that `State.reset` shows. DESIGN CHOICE (log 1): the spec leaves `MEMLEN` and `C` to the
host and gives no default. `MEMLEN` is the number of cells a binary `Load` or `Store` can name (R102);
`C` is small; the program is empty, as log 2 says. No statement rests on these values. -/
def Config.launch : Config.Params :=
  { memLen := 65536, capacity := 4, program := .words [] }

end Sys2Proof

namespace Sys2Proof.Machine

/-- The fault kinds (R170 to R174). A fault records its kind and nothing else (R175). Each ends the run
with no state changed (R176). Each is safe: the spec itself ends the step there. -/
inductive Fault where
  /-- Raised by `Load` and `Store` with a good register index and `a >= MEMLEN` (R171). Safe. -/
  | outOfBounds
  /-- Raised by `Add`, `Sub`, `Load`, `Store` with a register index of 32 or more (R172). Safe. -/
  | invalidRegister
  /-- Raised by `Jump(t)` with `t >= N` (R173). Safe. -/
  | invalidJumpTarget
  /-- Raised by the step when the word at `pc` is illegal, at the binary level only (R174). Safe. -/
  | illegalInstruction
  deriving DecidableEq, Repr

/-- Reasons for which the model gives a step no meaning. -/
inductive Refusal where
  /-- Raised by an arm of `exec` for an instruction not modelled yet. No arm raises it. Safe. -/
  | notModelled (mnemonic : String)
  /-- Raised by `Load` and `Store` when a slot must be evicted and the recency order names none
  (93_implementation_defined.md U12: a state that breaks the invariants I1 to I6 has no meaning; it is
  unreachable, R71). Safe. Log 15. -/
  | cacheInconsistent
  deriving DecidableEq, Repr

/-- The run state (R30). `Halted` is terminal. -/
inductive RunState where
  | running
  | halted
  deriving DecidableEq, Repr

/-- Memory (R32), as the list of the cells that are not 0, by strictly rising address; a cell that is not
listed holds 0, the reset value of every cell (R201). The addressable unit is the whole cell: there are no
bytes (R51, R55). Log 11. -/
abbrev Memory := List (Nat × Word)

/-- What a valid slot of the cache holds (R33). -/
structure Slot where
  addr : Nat
  val : Word
  deriving DecidableEq, Repr

/-- The cache (R33, R36, R38). `C` is the length of `slots`; an invalid slot is `none`, so that it has no
address and no value to read (R33, D22, log 14). -/
structure Cache where
  slots : List (Option Slot)
  /-- Slot numbers, most recently used first. -/
  lru : List Nat
  hits : Counter
  misses : Counter
  deriving DecidableEq, Repr

/-- The whole state of the machine. `memLen`, `program` and the number of slots are parameters that no
step changes (R6, log 3); the rest is the mutable state of R20 and the fault report of R39. -/
structure State where
  /-- `MEMLEN`. -/
  memLen : Nat
  /-- `I[0..N-1]`. -/
  program : Program
  /-- `x[0..31]` (R21). -/
  x : Vector Word Config.NREGS
  /-- The program counter, an instruction index (R25; a natural number, R28, log 10). -/
  pc : Nat
  /-- `run` (R30). -/
  run : RunState
  /-- `Mem` (R32). -/
  mem : Memory
  /-- `slot[]`, `lru`, `hits`, `misses` (R33 to R38). -/
  cache : Cache
  /-- The outcome of the last step: no fault, or the kind (R39, R40, R177; log 17). -/
  lastFault : Option Fault
  deriving DecidableEq, Repr

/-- The state after reset with the given parameters (R200, R201). -/
def State.resetWith (p : Config.Params) : State where
  memLen := p.memLen
  program := p.program
  x := Vector.replicate Config.NREGS 0#Config.XLEN
  pc := 0
  run := .running
  mem := []
  cache := { slots := List.replicate p.capacity none, lru := [], hits := 0#Config.CNTW, misses := 0#Config.CNTW }
  lastFault := none

/-- The machine right after reset, at the parameters of `Config.launch` (log 1). -/
def State.reset : State := State.resetWith Config.launch

/-- What a step finds at `pc`. -/
inductive Fetched where
  /-- The machine is stopped: no fetch is made (R121). -/
  | idle
  /-- An illegal word (R99, R123). -/
  | illegal (why : IllegalWord)
  /-- An instruction. -/
  | instr (i : Instr)
  deriving DecidableEq, Repr

/-- Why a run has ended (R131). -/
inductive StopReason where
  | halted
  | exhausted
  | faulted (k : Fault)
  deriving DecidableEq, Repr

/-- What the host can read (R40, R207). -/
structure Snapshot where
  x : Vector Word Config.NREGS
  pc : Nat
  run : RunState
  outcome : Option Fault
  hits : Counter
  misses : Counter
  deriving DecidableEq, Repr

end Sys2Proof.Machine
end

