-- ==== Sys2Proof/Machine/Ops.lean ====
section
/-! DEFINITION. The shared operations over registers, the pc, Memory and the cache (10_state.md R24, R29,
20_memory.md R53, R54, R60 to R66). There is no exception entry and no return from one on this hardware
(60_exceptions.md R180, R181): a fault is the outcome of the step. -/

namespace Sys2Proof.Machine

/-- The outcome of a part of a step: a result, a fault or a refusal. -/
abbrev Result (α : Type) := Host.Outcome α Fault Refusal

/-- Runs `f` on the result of `r`; a fault or a refusal ends the step at once (R8, `raise`). -/
def andThen {α β : Type} (r : Result α) (f : α → Result β) : Result β :=
  match r with
  | .next a => f a
  | .fault k => .fault k
  | .refused q => .refused q

/-! ### Registers and pc -/

/-- `x[i]`, defined for `i < 32` (R8): every instruction checks the bound before it reads (R124). -/
def State.reg (s : State) (i : Nat) : Word := s.x[i]?.getD 0#Config.XLEN

/-- `x[i] <- v`, defined for `i < 32` (R8). Register 0 is ordinary (R22). -/
def State.setReg (s : State) (i : Nat) (v : Word) : State :=
  { s with x := s.x.setIfInBounds i v }

/-- `advance()`: `pc <- pc + 1` (R29). -/
def State.advance (s : State) : State := { s with pc := s.pc + 1 }

/-- `jump_to(t)`: `pc <- t`, without a check of its own (R29). -/
def State.jumpTo (s : State) (t : Nat) : State := { s with pc := t }

/-- `run <- Halted` (R163). -/
def State.halt (s : State) : State := { s with run := .halted }

/-- `Mem` replaced. -/
def State.setMem (s : State) (m : Memory) : State := { s with mem := m }

/-- The cache state replaced. -/
def State.setCache (s : State) (c : Cache) : State := { s with cache := c }

/-- The fault report replaced (R39, R177). -/
def State.setLastFault (s : State) (k : Option Fault) : State := { s with lastFault := k }

/-- `N` (R6). -/
def State.N (s : State) : Nat := s.program.length

/-- `C` (R6). -/
def State.C (s : State) : Nat := s.cache.slots.length

/-- The host's `read_register` (R24, R183). -/
def readRegister (s : State) (i : Nat) : Except Fault Word :=
  if i < Config.NREGS then .ok (s.reg i) else .error .invalidRegister

/-- The host's `write_register` (R24, R183). -/
def writeRegister (s : State) (i : Nat) (v : Word) : Except Fault State :=
  if i < Config.NREGS then .ok (s.setReg i v) else .error .invalidRegister

/-- The cause code of a fault (R175; the spec's decision D8, log 23). -/
def faultCode : Fault → Nat
  | .outOfBounds => 1
  | .invalidRegister => 2
  | .invalidJumpTarget => 3
  | .illegalInstruction => 4

/-- The code of a step's outcome: 0 means no fault (R175). -/
def outcomeCode : Option Fault → Nat
  | none => 0
  | some k => faultCode k

/-! ### Memory -/

/-- The contents of cell `a`: what is listed, or 0, the reset value (R32, R201). -/
def Memory.read : Memory → Nat → Word
  | [], _ => 0#Config.XLEN
  | (k, v) :: m, a => if k = a then v else Memory.read m a

/-- Memory with cell `a` holding `v`: addresses stay strictly rising and no 0 is listed. -/
def Memory.write : Memory → Nat → Word → Memory
  | [], a, v => if v = 0#Config.XLEN then [] else [(a, v)]
  | (k, u) :: m, a, v =>
    if a < k then (if v = 0#Config.XLEN then (k, u) :: m else (a, v) :: (k, u) :: m)
    else if a = k then (if v = 0#Config.XLEN then m else (a, v) :: m)
    else (k, u) :: Memory.write m a v

/-- The canonical form: addresses strictly rising, no 0 listed. -/
abbrev Memory.wf (m : Memory) : Prop :=
  m.Pairwise (fun c d => c.1 < d.1) ∧ ∀ c ∈ m, c.2 ≠ 0#Config.XLEN

/-- Every listed cell exists: only addresses below `MEMLEN` are written (R54). -/
abbrev Memory.below (memLen : Nat) (m : Memory) : Prop := ∀ c ∈ m, c.1 < memLen

/-- `Mem[a]` (R32). -/
def State.cell (s : State) (a : Nat) : Word := Memory.read s.mem a

/-- `MemRead(a, 1)` (R53). -/
def memRead (a : Nat) (s : State) : Result Word :=
  if a < s.memLen then .next (s.cell a) else .fault .outOfBounds

/-- `MemWrite(a, 1, v)` (R54). -/
def memWrite (a : Nat) (v : Word) (s : State) : Result State :=
  if a < s.memLen then .next (s.setMem (Memory.write s.mem a v)) else .fault .outOfBounds

/-! ### Cache -/

/-- The first slot from number `i` on that is valid and holds address `a`, with its number. -/
def lookupFrom (a : Nat) : Nat → List (Option Slot) → Option (Nat × Slot)
  | _, [] => none
  | i, none :: rest => lookupFrom a (i + 1) rest
  | i, some e :: rest => if e.addr = a then some (i, e) else lookupFrom a (i + 1) rest

/-- `lookup(a)` (R60): the number of the valid slot that holds address `a`, with what it holds. By I1 there
is at most one; where I1 fails, which no run reaches, it is the lowest-numbered one (log 15). -/
def Cache.lookup (c : Cache) (a : Nat) : Option (Nat × Slot) := lookupFrom a 0 c.slots

/-- `touch(i)` (R61). -/
def Cache.touch (c : Cache) (i : Nat) : Cache := { c with lru := i :: c.lru.erase i }

/-- `slot[i] <- {valid, addr, val}`. -/
def Cache.fill (c : Cache) (i : Nat) (a : Nat) (v : Word) : Cache :=
  { c with slots := c.slots.set i (some { addr := a, val := v }) }

/-- The eviction of slot `i`, the last of `lru`: its mapping is discarded, Memory untouched (R62, R67). -/
def Cache.evict (c : Cache) (i : Nat) : Cache :=
  { c with slots := c.slots.set i none, lru := c.lru.dropLast }

/-- `take_slot()` (R62): the lowest-numbered invalid slot (D11, log 14), else the least recently used slot,
evicted. `none` when the recency order names no slot although all are valid: R62 gives that no meaning
(log 15). -/
def Cache.takeSlot (c : Cache) : Option (Nat × Cache) :=
  match c.slots.findIdx? Option.isNone with
  | some i => some (i, c)
  | none =>
    match c.lru.getLast? with
    | some i => if i < c.slots.length then some (i, c.evict i) else none
    | none => none

/-- The new mapping at the front of `lru`. -/
def Cache.pushFront (c : Cache) (i : Nat) : Cache := { c with lru := i :: c.lru }

/-- `install(a, v)` (R63), which does nothing when `C = 0` (R66). -/
def Cache.install (c : Cache) (a : Nat) (v : Word) : Option Cache :=
  if c.slots.length = 0 then some c
  else
    match c.takeSlot with
    | some (i, c') => some ((c'.fill i a v).pushFront i)
    | none => none

/-- `hits <- (hits + 1) mod 2^64` (R38, R73). -/
def Cache.countHit (c : Cache) : Cache := { c with hits := c.hits + 1 }

/-- `misses <- (misses + 1) mod 2^64` (R38, R73). -/
def Cache.countMiss (c : Cache) : Cache := { c with misses := c.misses + 1 }

/-- A miss that has its value: install the mapping and count the miss (R64, R65). -/
def cacheMiss (a : Nat) (v : Word) (s : State) : Result State :=
  match s.cache.install a v with
  | some c => .next (s.setCache c.countMiss)
  | none => .refused .cacheInconsistent

/-- `CacheLoad(a)` (R64): the value and the state after. -/
def cacheLoad (a : Nat) (s : State) : Result (Word × State) :=
  match s.cache.lookup a with
  | some (i, e) => .next (e.val, s.setCache (s.cache.touch i).countHit)
  | none =>
    andThen (memRead a s) fun v =>
    andThen (cacheMiss a v s) fun s' => .next (v, s')

/-- `CacheStore(a, v)` (R65): Memory is written first, on a hit as on a miss. -/
def cacheStore (a : Nat) (v : Word) (s : State) : Result State :=
  andThen (memWrite a v s) fun s' =>
  match s'.cache.lookup a with
  | some (i, _) => .next (s'.setCache ((s'.cache.fill i a v).touch i).countHit)
  | none => cacheMiss a v s'

/-! ### Views of the cache that the rules speak of -/

/-- What slot `i` holds: `none` when it is invalid or there is no such slot. -/
def Cache.slotAt (c : Cache) (i : Nat) : Option Slot := (c.slots[i]?).join

/-- The number of valid slots. -/
def Cache.validCount (c : Cache) : Nat := c.slots.countP Option.isSome

/-- The sequence `Q` of R70: the (address, value) pairs, most recently used first. -/
def Cache.queue (c : Cache) : List (Nat × Word) :=
  c.lru.filterMap fun i => (c.slotAt i).map fun e => (e.addr, e.val)

/-- The cached addresses, most recently used first (R70). -/
def Cache.addrs (c : Cache) : List Nat := c.queue.map Prod.fst

end Sys2Proof.Machine
end

