-- ==== Sys2Proof/Machine/Operands.lean ====
section
/-! DEFINITION. Operand validation (40_fetch_execute.md R124). The operand forms of this hardware are a
register index, an absolute cell address (42_load_store.md R150) and an absolute instruction index
(43_control.md R160); there is no other. The address is checked by Memory, inside the cache operation (R124,
R53, R54, conflict C4). -/

namespace Sys2Proof.Machine

/-- The register check of R124: one bad index suffices, source or destination (R172). -/
def checkRegisters (is : List Nat) : Result Unit :=
  if is.all (fun i => decide (i < Config.NREGS)) then .next () else .fault .invalidRegister

/-- The target check of R124 and R161: `t` is valid exactly when `t < N` (R160; D13, log 18). -/
def checkTarget (t : Nat) (s : State) : Result Unit :=
  if t < s.N then .next () else .fault .invalidJumpTarget

end Sys2Proof.Machine
end

