-- ==== Sys2Proof/Machine/Flags.lean ====
section
/-! DEFINITION. Results of the arithmetic instructions (41_arithmetic.md R140). The hardware has no flags
and no condition codes (10_state.md R20, R39): `Add` and `Sub` record nothing about overflow or borrow, so
there is no flag computation; this file holds the two results. -/

namespace Sys2Proof.Machine

/-- `(u(p) + u(q)) mod 2^XLEN` (R140, R141; wrap-around is the spec's decision D3, log 6). -/
def addResult (p q : Word) : Word := p + q

/-- `(u(p) - u(q)) mod 2^XLEN` (R140, R142; D3, log 6). -/
def subResult (p q : Word) : Word := p - q

end Sys2Proof.Machine
end

