-- ==== Sys2Proof/Machine/Arithmetic.lean ====
section
/-! DEFINITION. The meanings of `Add` and `Sub` (41_arithmetic.md). -/

namespace Sys2Proof.Machine

/-- The shape both share: check all three indices, read both sources, then write (R141, R142, R211). -/
def registerOp (op : Word → Word → Word) (d s1 s2 : Nat) (s : State) : Result State :=
  andThen (checkRegisters [d, s1, s2]) fun _ =>
  .next (s.setReg d (op (s.reg s1) (s.reg s2))).advance

/-- `Add(d, s1, s2)` (R141). -/
def execAdd (d s1 s2 : Nat) (s : State) : Result State := registerOp addResult d s1 s2 s

/-- `Sub(d, s1, s2)` (R142). -/
def execSub (d s1 s2 : Nat) (s : State) : Result State := registerOp subResult d s1 s2 s

end Sys2Proof.Machine
end

