-- ==== Sys2Proof/Machine/Control.lean ====
section
/-! DEFINITION. The meanings of `Jump` and `Halt` (43_control.md). -/

namespace Sys2Proof.Machine

/-- `Jump(t)` (R161). -/
def execJump (t : Nat) (s : State) : Result State :=
  andThen (checkTarget t s) fun _ => .next (s.jumpTo t)

/-- `Halt` (R163): `pc` unchanged. -/
def execHalt (s : State) : Result State := .next s.halt

end Sys2Proof.Machine
end

