-- ==== Sys2Proof/Machine/LoadStore.lean ====
section
/-! DEFINITION. The meanings of `Load` and `Store` (42_load_store.md): the load-store unit of 20_memory.md
R74. The address is the field itself (R150). -/

namespace Sys2Proof.Machine

/-- `Load(d, a)` (R152): the register check comes before the cache is touched. -/
def execLoad (d a : Nat) (s : State) : Result State :=
  andThen (checkRegisters [d]) fun _ =>
  andThen (cacheLoad a s) fun r =>
  .next (r.2.setReg d r.1).advance

/-- `Store(a, r)` (R153): the register check comes before Memory or the cache is touched. -/
def execStore (a r : Nat) (s : State) : Result State :=
  andThen (checkRegisters [r]) fun _ =>
  andThen (cacheStore a (s.reg r) s) fun s' =>
  .next s'.advance

end Sys2Proof.Machine
end

