-- ==== Sys2Proof/Machine/Dispatch.lean ====
section
/-! DEFINITION. Dispatch (40_fetch_execute.md R125): one arm per instruction. -/

namespace Sys2Proof.Machine

def exec (i : Instr) (s : State) : Host.Outcome State Fault Refusal :=
  match i with
  | .add d s1 s2 => Sys2Proof.Machine.execAdd d s1 s2 s
  | .sub d s1 s2 => Sys2Proof.Machine.execSub d s1 s2 s
  | .load d a => Sys2Proof.Machine.execLoad d a s
  | .store a r => Sys2Proof.Machine.execStore a r s
  | .jump t => Sys2Proof.Machine.execJump t s
  | .halt => Sys2Proof.Machine.execHalt s

end Sys2Proof.Machine
end

