-- ==== Sys2Proof/Machine/Fetch.lean ====
section
/-! DEFINITION. What the step does around an instruction (40_fetch_execute.md R120 to R123, R127): when it
is taken, fetch and decode, and the record of its outcome. -/

namespace Sys2Proof.Machine

/-- `I[k]`, decoded at the binary level; nothing when `k >= N` (R122, R123). -/
def programAt (p : Program) (k : Nat) : Fetched :=
  match p with
  | .instrs is =>
    match is[k]? with
    | some i => .instr i
    | none => .idle
  | .words ws =>
    match ws[k]? with
    | some w =>
      match decode w with
      | .ok i => .instr i
      | .error why => .illegal why
    | none => .idle

/-- What the step finds: nothing when `run = Halted` or `pc >= N` (R121), else what stands at `pc`. The
fetch changes nothing and does not go through the cache (R122). -/
def fetch (s : State) : Fetched :=
  match s.run with
  | .halted => .idle
  | .running => programAt s.program s.pc

/-- `stopped` (R121). -/
@[simp] abbrev State.stopped (s : State) : Prop := s.run = .halted ∨ s.N ≤ s.pc

/-- A step that completes leaves the report "no fault" (R40, log 17). -/
def retire (r : Result State) : Result State :=
  andThen r fun s => .next (s.setLastFault none)

/-- The words of a program: an abstract instruction's word, or the illegal all-zero word for one that has
none (R99, R102). -/
def Program.asWords : Program → List InstrWord
  | .instrs is => is.map fun i => (encode i).getD 0
  | .words ws => ws

/-- A binary program like `p` whose word at index `k` is `w`; a program too short for index `k` is first
filled up with the illegal all-zero word. -/
def Program.withWord (p : Program) (k : Nat) (w : InstrWord) : Program :=
  let ws := Program.asWords p
  .words ((ws.take k ++ List.replicate (k - ws.length) 0) ++ w :: ws.drop (k + 1))

end Sys2Proof.Machine
end

