-- ==== Sys2Proof/Machine/Step.lean ====
section
/-! DEFINITION. The execution step (40_fetch_execute.md R120, R121, R127). -/

namespace Sys2Proof.Machine

/-- One step: nothing changes when the machine is stopped (R121; D17, log 19); an illegal word faults
(R123, R174); an instruction is executed and, if it completes, leaves the report "no fault". -/
def step (s : State) : Host.Outcome State Fault Refusal :=
  match fetch s with
  | .idle => .next s
  | .illegal _ => .fault .illegalInstruction
  | .instr i => retire (exec i s)

/-- `s` with the instruction word `w` placed where the step fetches next: at index `pc` of a binary
program, the machine running. It stands for the loader, which is outside the block (R5 (a), R204; log 2,
log 25). -/
def State.withFetchWord (s : State) (nbits w : Nat) : State :=
  { s with program := Program.withWord s.program s.pc (tableWord nbits w), run := .running }

end Sys2Proof.Machine
end

