-- ==== Sys2Proof/Machine/Loop.lean ====
section
/-! DEFINITION. The driving loop (40_fetch_execute.md R128, R131), the host's observations and its reset
(10_state.md R40, 70_reset_and_hazards.md R200). -/

namespace Sys2Proof.Machine

/-- Why the loop stops here, if it does (R31, R128, R131). -/
def State.stopReason (s : State) : Option StopReason :=
  if s.run = .halted then some .halted
  else if s.N ≤ s.pc then some .exhausted
  else s.lastFault.map .faulted

/-- What the loop does with a step's outcome: it goes on from the next state, or records the fault with
all else as it was (R128, R177). A refusal is the model's, and leaves the state (log 15). -/
def settle (s : State) : Result State → State
  | .next s' => s'
  | .fault k => s.setLastFault (some k)
  | .refused _ => s

/-- One turn of the driving loop: no step is issued once the run has ended (R128). -/
def State.request (s : State) : State :=
  match s.stopReason with
  | some _ => s
  | none => settle s (step s)

/-- `n` turns of the driving loop. The number is the model's own: the hardware has no step budget (R128;
D25, log 21). -/
def State.runFor : Nat → State → State
  | 0, s => s
  | n + 1, s => State.runFor n s.request

/-- The host's read-only snapshot (R40). -/
def State.snapshot (s : State) : Snapshot where
  x := s.x
  pc := s.pc
  run := s.run
  outcome := s.lastFault
  hits := s.cache.hits
  misses := s.cache.misses

/-- The parameters of a run, read back from the state (R6). -/
def State.params (s : State) : Config.Params where
  memLen := s.memLen
  capacity := s.C
  program := s.program

/-- Reset applied again, at the same parameters (R200). -/
def State.reboot (s : State) : State := State.resetWith s.params

/-- The instructions of a list executed one after another on the same machine, each by its meaning alone,
for rules that speak of a sequence of instructions (42_load_store.md R154, 20_memory.md R72). -/
def execAll : List Instr → State → Result State
  | [], s => .next s
  | i :: is, s => andThen (exec i s) (execAll is)

end Sys2Proof.Machine
end

