-- ==== Sys2Proof/Safety.lean ====
section
/-! DEFINITION. What the claims speak of: the invariants of the state (10_state.md R27, R34, R37), bounds
(70_reset_and_hazards.md R206), agreement of states, and the recency law of 20_memory.md R70. -/

namespace Sys2Proof.Machine

/-- The cache invariants I1 to I6 (R34, R37), for a Memory `m` of `memLen` cells. -/
structure CacheInv (memLen : Nat) (m : Memory) (c : Cache) : Prop where
  /-- I1: no two valid slots map the same address. -/
  noDuplicate : ∀ i < c.slots.length, ∀ j < c.slots.length,
    ∀ e ∈ c.slotAt i, ∀ f ∈ c.slotAt j, e.addr = f.addr → i = j
  /-- I2: a valid slot's address is in range. -/
  inRange : ∀ i < c.slots.length, ∀ e ∈ c.slotAt i, e.addr < memLen
  /-- I3: a valid slot holds what its cell holds. -/
  coherent : ∀ i < c.slots.length, ∀ e ∈ c.slotAt i, e.val = Memory.read m e.addr
  /-- I4, one half: every number in the recency order is a valid slot's. -/
  lruValid : ∀ i ∈ c.lru, (c.slotAt i).isSome
  /-- I4, the other half: every valid slot is in the recency order. -/
  validLru : ∀ i < c.slots.length, (c.slotAt i).isSome → i ∈ c.lru
  /-- I5: no number occurs twice in the recency order. -/
  lruNodup : c.lru.Nodup
  /-- I6: its length is the number of valid slots, at most `C`. -/
  lruLength : c.lru.length = c.validCount ∧ c.lru.length ≤ c.slots.length

/-- The invariant of the machine: Memory in canonical form and within its length, the cache invariants, the
pc in range (R27) and the program within its bound (R28). -/
structure StateInv (s : State) : Prop where
  memWf : Memory.wf s.mem
  memBelow : Memory.below s.memLen s.mem
  cacheInv : CacheInv s.memLen s.mem s.cache
  pcInRange : s.pc ≤ s.N
  programBound : s.N < Config.programBound

/-- Every index, address and target of `i` is in bounds (R124, R206). -/
def inBounds (memLen n : Nat) (i : Instr) : Bool :=
  match i with
  | .add d s1 s2 => decide (d < 32) && decide (s1 < 32) && decide (s2 < 32)
  | .sub d s1 s2 => decide (d < 32) && decide (s1 < 32) && decide (s2 < 32)
  | .load d a => decide (d < 32) && decide (a < memLen)
  | .store a r => decide (r < 32) && decide (a < memLen)
  | .jump t => decide (t < n)
  | .halt => true

/-- What stands at `pc` is a legal word or an abstract instruction, with every field in bounds. -/
def fetchedInBounds (memLen n : Nat) (f : Fetched) : Bool :=
  match f with
  | .idle => true
  | .illegal _ => false
  | .instr i => inBounds memLen n i

/-- A whole program whose every instruction is legal and in bounds: a static condition (R206). -/
def programInBounds (memLen : Nat) (p : Program) : Bool :=
  (List.range p.length).all fun k => fetchedInBounds memLen p.length (programAt p k)

/-- The recency law of R70 in one formula: an access to `a` with value `v` puts the pair in front, takes
an older pair of the same address out, and keeps the first `C` pairs. -/
def afterAccess (capacity a : Nat) (v : Word) (q : List (Nat × Word)) : List (Nat × Word) :=
  ((a, v) :: q.filter fun p => decide (p.1 ≠ a)).take capacity

/-- Same parameters (R6). -/
@[simp] abbrev SameParams (s t : State) : Prop :=
  t.memLen = s.memLen ∧ t.program = s.program ∧ t.C = s.C

/-- The run state, the fault report and the parameters are the same. -/
@[simp] abbrev SameSystem (s t : State) : Prop := t.run = s.run ∧ t.lastFault = s.lastFault ∧ SameParams s t

/-- Everything a program can see, and the outcome, is the same: the states may differ in the cache state
only, its capacity included (R41). -/
@[simp] abbrev AgreeButCache (s t : State) : Prop :=
  t.memLen = s.memLen ∧ t.program = s.program ∧ t.x = s.x ∧ t.pc = s.pc ∧ t.run = s.run ∧ t.mem = s.mem ∧
    t.lastFault = s.lastFault

/-- Everything that decides where control goes is the same: the states may differ in registers, Memory
contents and cache state (R130). -/
@[simp] abbrev AgreeOnControl (s t : State) : Prop :=
  t.memLen = s.memLen ∧ t.program = s.program ∧ t.pc = s.pc ∧ t.run = s.run ∧ t.lastFault = s.lastFault

/-- `s` with another program in the instruction store, for the comparison of the two levels (R10). -/
def State.withProgram (s : State) (p : Program) : State := { s with program := p }

/-- The run from `s` ends after finitely many turns of the driving loop (R131). -/
def Ends (s : State) : Prop := ∃ n, (s.runFor n).stopReason ≠ none

/-- The instruction stores to cell `a`. -/
def storesTo (a : Nat) (i : Instr) : Bool :=
  match i with
  | .store b _ => decide (b = a)
  | .add _ _ _ => false
  | .sub _ _ _ => false
  | .load _ _ => false
  | .jump _ => false
  | .halt => false

/-- The address a `Load` or `Store` accesses (R150). -/
def accessAddr (i : Instr) : Option Nat :=
  match i with
  | .load _ a => some a
  | .store a _ => some a
  | .add _ _ _ => none
  | .sub _ _ _ => none
  | .jump _ => none
  | .halt => none

end Sys2Proof.Machine
end

