-- ==== Sys2Proof/Certificates/Slice0/Obligations.lean ====
section
/-! DEFINITION. The statements for the provers. Each formalises a rule of spec/ or follows from rules; where a
clause rests on a decision the spec marks as its own, the docstring names it. -/

open Sys2Proof Sys2Proof.Machine

/-! ### Encoding (30_encoding.md) -/

/-- R102 (the spec's decision D5): the encoder's table, where it is defined, and that it and the decoder are
inverse to each other on the instructions that have a word and on the legal words. The last two clauses
are the consequences R102 draws: what no instruction of a binary program can name, and that every index
can be reached by falling through. -/
def Obligations.EncoderIsPartialInverseOfDecoder : Prop :=
  (∀ d s1 s2, d ≤ 255 → s1 ≤ 255 → s2 ≤ 255 →
    encode (.add d s1 s2) = some (0x01#8 ++ BitVec.ofNat 8 d ++ BitVec.ofNat 8 s1 ++ BitVec.ofNat 8 s2)) ∧
  (∀ d s1 s2, d ≤ 255 → s1 ≤ 255 → s2 ≤ 255 →
    encode (.sub d s1 s2) = some (0x02#8 ++ BitVec.ofNat 8 d ++ BitVec.ofNat 8 s1 ++ BitVec.ofNat 8 s2)) ∧
  (∀ d a, d ≤ 255 → a ≤ 65535 → encode (.load d a) = some (0x03#8 ++ BitVec.ofNat 8 d ++ BitVec.ofNat 16 a)) ∧
  (∀ a r, r ≤ 255 → a ≤ 65535 → encode (.store a r) = some (0x04#8 ++ BitVec.ofNat 8 r ++ BitVec.ofNat 16 a)) ∧
  (∀ t, t ≤ 16777215 → encode (.jump t) = some (0x05#8 ++ BitVec.ofNat 24 t)) ∧
  encode .halt = some (0x06#8 ++ 0#24) ∧
  (∀ i, (encode i).isSome = true ↔ WellFormed i) ∧
  (∀ i w, encode i = some w → decode w = .ok i) ∧
  (∀ i w, decode w = .ok i → encode i = some w) ∧
  (∀ i w w', decode w = .ok i → decode w' = .ok i → w = w') ∧
  (∀ (s : State) ws i, s.program = .words ws → fetch s = .instr i →
    (∀ a, accessAddr i = some a → a < 65536) ∧ ∀ t, i = .jump t → t < 16777216) ∧
  (∀ n, ∃ (s t : State) (ws : List InstrWord), s.program = .words ws ∧ s.pc = n ∧ step s = .next t ∧
    t.pc = n + 1 ∧ t.pc < t.N)

/-- R97, R98 (D5, D6): a word is the instruction of a row when its masked bits match, with the fields of the
row's format read as unsigned numbers (R93 to R96); the rows are disjoint; a word is illegal exactly when
it matches no row. -/
def Obligations.OpcodeRowsByMaskAndMatch : Prop :=
  (∀ w : InstrWord,
    (w &&& 0xFF000000#32 = 0x01000000#32 ↔ decode w = .ok (.add
      (w.toNat / 2 ^ 16 % 2 ^ 8) (w.toNat / 2 ^ 8 % 2 ^ 8) (w.toNat % 2 ^ 8))) ∧
    (w &&& 0xFF000000#32 = 0x02000000#32 ↔ decode w = .ok (.sub
      (w.toNat / 2 ^ 16 % 2 ^ 8) (w.toNat / 2 ^ 8 % 2 ^ 8) (w.toNat % 2 ^ 8))) ∧
    (w &&& 0xFF000000#32 = 0x03000000#32 ↔
      decode w = .ok (.load (w.toNat / 2 ^ 16 % 2 ^ 8) (w.toNat % 2 ^ 16))) ∧
    (w &&& 0xFF000000#32 = 0x04000000#32 ↔
      decode w = .ok (.store (w.toNat % 2 ^ 16) (w.toNat / 2 ^ 16 % 2 ^ 8))) ∧
    (w &&& 0xFF000000#32 = 0x05000000#32 ↔ decode w = .ok (.jump (w.toNat % 2 ^ 24))) ∧
    (w &&& 0xFFFFFFFF#32 = 0x06000000#32 ↔ decode w = .ok .halt) ∧
    ((∃ why, decode w = .error why) ↔ ∀ row ∈ opcodeRows, w &&& row.1 ≠ row.2)) ∧
  opcodeRows.Pairwise fun row other => ∀ w : InstrWord, ¬ (w &&& row.1 = row.2 ∧ w &&& other.1 = other.2)

/-- R99, R101 (D6, D7): which words are illegal, and that an illegal word at the pc of a running machine
faults. -/
def Obligations.IllegalWordsFaultWhenExecuted : Prop :=
  (∀ w : InstrWord, (∃ why, decode w = .error why) ↔
    w.toNat / 2 ^ 24 = 0 ∨ 7 ≤ w.toNat / 2 ^ 24 ∨ (w.toNat / 2 ^ 24 = 6 ∧ w.toNat % 2 ^ 24 ≠ 0)) ∧
  (∀ (s : State) ws w why, s.run = .running → s.program = .words ws → ws[s.pc]? = some w →
    decode w = .error why → step s = .fault .illegalInstruction)

/-- R106: the spec's worked encodings. -/
def Obligations.WorkedEncodingsDecode : Prop :=
  decode 0x01030102#32 = .ok (.add 3 1 2) ∧ decode 0x02030102#32 = .ok (.sub 3 1 2) ∧
  decode 0x03030000#32 = .ok (.load 3 0) ∧ decode 0x04020001#32 = .ok (.store 1 2) ∧
  decode 0x05000005#32 = .ok (.jump 5) ∧ decode 0x06000000#32 = .ok .halt ∧
  decode 0x01200000#32 = .ok (.add 32 0 0) ∧ decode 0x00000000#32 = .error .unassignedOpcode ∧
  decode 0x06000001#32 = .error .haltLowBitsSet ∧ decode 0xFFFFFFFF#32 = .error .unassignedOpcode

/-! ### Reset and invariants (10_state.md, 70_reset_and_hazards.md) -/

/-- R201: the value of every piece of state after reset, for any parameters; the counters are D12, the
outcome of the last step D10. -/
def Obligations.ResetValuesOfAllState : Prop :=
  ∀ p : Config.Params,
    (∀ r, r < 32 → (State.resetWith p).reg r = 0#Config.XLEN) ∧ (State.resetWith p).pc = 0 ∧
    (State.resetWith p).run = .running ∧ (∀ a, (State.resetWith p).cell a = 0#Config.XLEN) ∧
    (∀ i, (State.resetWith p).cache.slotAt i = none) ∧ (State.resetWith p).cache.lru = [] ∧
    (State.resetWith p).cache.hits = 0#Config.CNTW ∧ (State.resetWith p).cache.misses = 0#Config.CNTW ∧
    (State.resetWith p).lastFault = none ∧ (State.resetWith p).memLen = p.memLen ∧
    (State.resetWith p).C = p.capacity ∧ (State.resetWith p).program = p.program

/-- R203 (derived there): the invariants hold after reset, for any parameters within the bound on `N`, and
at `State.reset`. -/
def Obligations.ResetMeetsInvariant : Prop :=
  (∀ p : Config.Params, p.program.length < 2 ^ 32 → StateInv (State.resetWith p)) ∧ StateInv State.reset

/-- R27, R34, R37, R69, R71: every step keeps the invariant: Memory in canonical form (the model's own, log
11) and within `MEMLEN`, I1 to I6 of the cache with coherence, the pc in range. -/
def Obligations.StepKeepsInvariant : Prop :=
  ∀ s t, StateInv s → step s = .next t → StateInv t

/-- R127: from a state that meets the invariant a step has one of two outcomes, a next state or one of the
fault kinds; it is never refused. -/
def Obligations.StepIsNextOrFault : Prop :=
  ∀ s, StateInv s → (∃ t, step s = .next t) ∨ ∃ k, step s = .fault k

/-- R6, R20, R33, R52, R79: no step changes `MEMLEN`, the number of slots or the program. -/
def Obligations.StepKeepsParameters : Prop :=
  ∀ s t, step s = .next t → SameParams s t

/-- R200 (D23), vector V-R2: reset applied after any run, from any state, gives the reset state of that state's
parameters: nothing survives. A register that the host pre-sets (R204) changes no parameter, so a run from
pre-set registers is reset to the first reset state too. -/
def Obligations.ResetAgainForgetsTheRun : Prop :=
  (∀ (s : State) n, (s.runFor n).reboot = State.resetWith s.params) ∧
  (∀ p : Config.Params, (State.resetWith p).params = p) ∧
  (∀ (s t : State) i v, writeRegister s i v = .ok t → t.params = s.params)

/-- R30: `run` is Running at reset, only `Halt` moves it to Halted, and nothing moves it out. -/
def Obligations.OnlyHaltChangesRunState : Prop :=
  (∀ p, (State.resetWith p).run = .running) ∧
  (∀ s, fetch s = .instr .halt → ∃ t, step s = .next t ∧ t.run = .halted) ∧
  (∀ s t, step s = .next t → fetch s ≠ .instr .halt → t.run = s.run) ∧
  (∀ s t, s.run = .halted → step s = .next t → t.run = .halted)

/-! ### Registers (10_state.md) -/

/-- R22 (D4): register 0 keeps what is written to it, whether by `Add` or by `Load`, and is read like any
other. -/
def Obligations.RegisterZeroIsOrdinary : Prop :=
  (∀ (s : State) v, (s.setReg 0 v).reg 0 = v) ∧
  (∀ (s : State) a b d, a < 32 → b < 32 → d < 32 → ∃ t u, exec (.add 0 a b) s = .next t ∧
    t.reg 0 = s.reg a + s.reg b ∧ exec (.add d 0 0) t = .next u ∧ u.reg d = t.reg 0 + t.reg 0) ∧
  (∀ (s : State) a, StateInv s → a < s.memLen → ∃ t, exec (.load 0 a) s = .next t ∧ t.reg 0 = s.cell a)

/-- R183, R24: the host's register access. -/
def Obligations.HostRegisterAccessIsBoundsChecked : Prop :=
  (∀ (s : State) i v, 32 ≤ i →
    readRegister s i = .error .invalidRegister ∧ writeRegister s i v = .error .invalidRegister) ∧
  (∀ (s : State) i, i < 32 → readRegister s i = .ok (s.reg i)) ∧
  (∀ (s : State) i v, i < 32 → ∃ t, writeRegister s i v = .ok t ∧ t.reg i = v ∧
    (∀ r, r ≠ i → t.reg r = s.reg r) ∧ t.pc = s.pc ∧ t.mem = s.mem ∧ t.cache = s.cache ∧ SameSystem s t)

/-! ### Add and Sub (41_arithmetic.md) -/

/-- R141 whole (its wrap-around is D3, its encoding D5): `Add`'s word, its result, what it leaves unchanged,
and when it faults. -/
def Obligations.AddWritesWrappedSum : Prop :=
  (∀ d s1 s2, d ≤ 255 → s1 ≤ 255 → s2 ≤ 255 →
    encode (.add d s1 s2) = some (0x01#8 ++ BitVec.ofNat 8 d ++ BitVec.ofNat 8 s1 ++ BitVec.ofNat 8 s2)) ∧
  (∀ d s1 s2 (s : State), d < 32 → s1 < 32 → s2 < 32 → ∃ t, exec (.add d s1 s2) s = .next t ∧
    (t.reg d).toNat = ((s.reg s1).toNat + (s.reg s2).toNat) % 2 ^ Config.XLEN ∧ t.pc = s.pc + 1 ∧
    (∀ r, r ≠ d → t.reg r = s.reg r) ∧ t.mem = s.mem ∧ t.cache = s.cache ∧ SameSystem s t) ∧
  (∀ d s1 s2 (s : State), 32 ≤ d ∨ 32 ≤ s1 ∨ 32 ≤ s2 → exec (.add d s1 s2) s = .fault .invalidRegister)

/-- R142 whole (D3, D5): `Sub`, first source minus second. -/
def Obligations.SubWritesWrappedDifference : Prop :=
  (∀ d s1 s2, d ≤ 255 → s1 ≤ 255 → s2 ≤ 255 →
    encode (.sub d s1 s2) = some (0x02#8 ++ BitVec.ofNat 8 d ++ BitVec.ofNat 8 s1 ++ BitVec.ofNat 8 s2)) ∧
  (∀ d s1 s2 (s : State), d < 32 → s1 < 32 → s2 < 32 → ∃ t, exec (.sub d s1 s2) s = .next t ∧
    ((t.reg d).toNat : Int) = (((s.reg s1).toNat : Int) - ((s.reg s2).toNat : Int)) % 2 ^ Config.XLEN ∧
    t.pc = s.pc + 1 ∧ (∀ r, r ≠ d → t.reg r = s.reg r) ∧ t.mem = s.mem ∧ t.cache = s.cache ∧
    SameSystem s t) ∧
  (∀ d s1 s2 (s : State), 32 ≤ d ∨ 32 ≤ s1 ∨ 32 ≤ s2 → exec (.sub d s1 s2) s = .fault .invalidRegister)

/-- R140 (D2, D3): read as signed numbers, the results of `Add` and `Sub` are the true sum and difference
when these fit, and differ from them by exactly 2^XLEN otherwise. -/
def Obligations.SignedReadingOfResults : Prop :=
  (∀ d s1 s2 (s t : State), exec (.add d s1 s2) s = .next t →
    (-2 ^ (Config.XLEN - 1) ≤ (s.reg s1).toInt + (s.reg s2).toInt → (s.reg s1).toInt + (s.reg s2).toInt < 2 ^ (Config.XLEN - 1) →
      (t.reg d).toInt = (s.reg s1).toInt + (s.reg s2).toInt) ∧
    (2 ^ (Config.XLEN - 1) ≤ (s.reg s1).toInt + (s.reg s2).toInt →
      (t.reg d).toInt = (s.reg s1).toInt + (s.reg s2).toInt - 2 ^ Config.XLEN) ∧
    ((s.reg s1).toInt + (s.reg s2).toInt < -2 ^ (Config.XLEN - 1) →
      (t.reg d).toInt = (s.reg s1).toInt + (s.reg s2).toInt + 2 ^ Config.XLEN)) ∧
  (∀ d s1 s2 (s t : State), exec (.sub d s1 s2) s = .next t →
    (-2 ^ (Config.XLEN - 1) ≤ (s.reg s1).toInt - (s.reg s2).toInt → (s.reg s1).toInt - (s.reg s2).toInt < 2 ^ (Config.XLEN - 1) →
      (t.reg d).toInt = (s.reg s1).toInt - (s.reg s2).toInt) ∧
    (2 ^ (Config.XLEN - 1) ≤ (s.reg s1).toInt - (s.reg s2).toInt →
      (t.reg d).toInt = (s.reg s1).toInt - (s.reg s2).toInt - 2 ^ Config.XLEN) ∧
    ((s.reg s1).toInt - (s.reg s2).toInt < -2 ^ (Config.XLEN - 1) →
      (t.reg d).toInt = (s.reg s1).toInt - (s.reg s2).toInt + 2 ^ Config.XLEN))

/-! ### Load and Store (42_load_store.md) -/

/-- R152, with R69 and R70: `Load` completes with the cell's value in `x[d]`, on a hit as on a miss, the
recency sequence moved by the law of R70, one counter incremented (D12), and nothing else changed; and
when it faults (D9 for the order of the two). The word is D5. -/
def Obligations.LoadReturnsCellValue : Prop :=
  (∀ d a, d ≤ 255 → a ≤ 65535 → encode (.load d a) = some (0x03#8 ++ BitVec.ofNat 8 d ++ BitVec.ofNat 16 a)) ∧
  (∀ d a (s : State), StateInv s → d < 32 → a < s.memLen → ∃ t, exec (.load d a) s = .next t ∧
    t.reg d = s.cell a ∧ (∀ r, r ≠ d → t.reg r = s.reg r) ∧ t.pc = s.pc + 1 ∧ t.mem = s.mem ∧
    t.cache.queue = afterAccess s.C a (s.cell a) s.cache.queue ∧
    ((s.cache.lookup a).isSome = true → t.cache.hits = s.cache.hits + 1 ∧ t.cache.misses = s.cache.misses) ∧
    (s.cache.lookup a = none → t.cache.hits = s.cache.hits ∧ t.cache.misses = s.cache.misses + 1) ∧
    SameSystem s t) ∧
  (∀ d a (s : State), 32 ≤ d → exec (.load d a) s = .fault .invalidRegister) ∧
  (∀ d a (s : State), StateInv s → d < 32 → s.memLen ≤ a → exec (.load d a) s = .fault .outOfBounds)

/-- R153, with R69 and R70: `Store` completes with `x[r]` in cell `a` and in the cache, every other cell and
every register as before, the recency sequence moved by the law of R70, one counter incremented (D12);
and when it faults (D9). The address stored to is the field `a` (R150). The word is D5. -/
def Obligations.StoreWritesCellAndCache : Prop :=
  (∀ a r, r ≤ 255 → a ≤ 65535 → encode (.store a r) = some (0x04#8 ++ BitVec.ofNat 8 r ++ BitVec.ofNat 16 a)) ∧
  (∀ a r (s : State), StateInv s → r < 32 → a < s.memLen → ∃ t, exec (.store a r) s = .next t ∧
    t.cell a = s.reg r ∧ (∀ b, b ≠ a → t.cell b = s.cell b) ∧ t.x = s.x ∧ t.pc = s.pc + 1 ∧
    t.cache.queue = afterAccess s.C a (s.reg r) s.cache.queue ∧
    ((s.cache.lookup a).isSome = true → t.cache.hits = s.cache.hits + 1 ∧ t.cache.misses = s.cache.misses) ∧
    (s.cache.lookup a = none → t.cache.hits = s.cache.hits ∧ t.cache.misses = s.cache.misses + 1) ∧
    SameSystem s t) ∧
  (∀ a r (s : State), 32 ≤ r → exec (.store a r) s = .fault .invalidRegister) ∧
  (∀ a r (s : State), r < 32 → s.memLen ≤ a → exec (.store a r) s = .fault .outOfBounds)

/-- R154, R72 (a): a `Store` to `a`, then any instructions that do not store to `a`, then a `Load` of `a`
gives the stored value, whatever the cache holds or evicts. -/
def Obligations.StoreThenLoadReturnsStoredValue : Prop :=
  ∀ a r d (js : List Instr) (s s1 s2 : State), StateInv s → d < 32 → exec (.store a r) s = .next s1 →
    (∀ j ∈ js, storesTo a j = false) → execAll js s1 = .next s2 →
    ∃ t, exec (.load d a) s2 = .next t ∧ t.reg d = s.reg r

/-! ### Memory and cache (20_memory.md) -/

/-- R53, R54: `MemRead` and `MemWrite`: the bound, the value, and that no other cell changes. The premise of
reading back is the canonical form of Memory (log 11). -/
def Obligations.MemoryPrimitivesAreBoundsChecked : Prop :=
  (∀ a (s : State), s.memLen ≤ a → memRead a s = .fault .outOfBounds) ∧
  (∀ a (s : State), a < s.memLen → memRead a s = .next (s.cell a)) ∧
  (∀ a v (s : State), s.memLen ≤ a → memWrite a v s = .fault .outOfBounds) ∧
  (∀ a v (s : State), Memory.wf s.mem → a < s.memLen → ∃ t, memWrite a v s = .next t ∧ t.cell a = v ∧
    (∀ b, b ≠ a → t.cell b = s.cell b) ∧ t.x = s.x ∧ t.pc = s.pc ∧ t.cache = s.cache ∧ SameSystem s t)

/-- The model's own canonical form (log 11): two Memories in it with the same cells are equal. -/
def Obligations.CanonicalMemoryIsDeterminedByItsCells : Prop :=
  ∀ m n : Memory, Memory.wf m → Memory.wf n → (∀ a, Memory.read m a = Memory.read n a) → m = n

/-- R64 with R60 to R63 (the lowest-numbered slot is D11, the counters D12): `CacheLoad`, case by case, down
to the slot number. -/
def Obligations.CacheLoadFollowsItsAlgorithm : Prop :=
  ∀ a (s : State), CacheInv s.memLen s.mem s.cache →
    (∀ i e, s.cache.slotAt i = some e → e.addr = a →
      cacheLoad a s = .next (e.val, s.setCache
        { slots := s.cache.slots, lru := i :: s.cache.lru.erase i,
          hits := s.cache.hits + 1, misses := s.cache.misses })) ∧
    (s.memLen ≤ a → cacheLoad a s = .fault .outOfBounds) ∧
    (a < s.memLen → (∀ i e, s.cache.slotAt i = some e → e.addr ≠ a) →
      (s.C = 0 → cacheLoad a s = .next (s.cell a, s.setCache
        { slots := s.cache.slots, lru := s.cache.lru,
          hits := s.cache.hits, misses := s.cache.misses + 1 })) ∧
      (∀ i, i < s.C → s.cache.slotAt i = none → (∀ j, j < i → (s.cache.slotAt j).isSome = true) →
        cacheLoad a s = .next (s.cell a, s.setCache
          { slots := s.cache.slots.set i (some { addr := a, val := s.cell a }), lru := i :: s.cache.lru,
            hits := s.cache.hits, misses := s.cache.misses + 1 })) ∧
      (∀ i l, (∀ j, j < s.C → (s.cache.slotAt j).isSome = true) → s.cache.lru = l ++ [i] →
        cacheLoad a s = .next (s.cell a, s.setCache
          { slots := s.cache.slots.set i (some { addr := a, val := s.cell a }), lru := i :: l,
            hits := s.cache.hits, misses := s.cache.misses + 1 })))

/-- R65 with R60 to R63 (D11, D12): `CacheStore`, case by case, down to the slot number; Memory is written
in every case that completes. -/
def Obligations.CacheStoreFollowsItsAlgorithm : Prop :=
  ∀ a v (s : State), CacheInv s.memLen s.mem s.cache →
    (s.memLen ≤ a → cacheStore a v s = .fault .outOfBounds) ∧
    (∀ i e, s.cache.slotAt i = some e → e.addr = a →
      cacheStore a v s = .next ((s.setMem (Memory.write s.mem a v)).setCache
        { slots := s.cache.slots.set i (some { addr := a, val := v }), lru := i :: s.cache.lru.erase i,
          hits := s.cache.hits + 1, misses := s.cache.misses })) ∧
    (a < s.memLen → (∀ i e, s.cache.slotAt i = some e → e.addr ≠ a) →
      (s.C = 0 → cacheStore a v s = .next ((s.setMem (Memory.write s.mem a v)).setCache
        { slots := s.cache.slots, lru := s.cache.lru,
          hits := s.cache.hits, misses := s.cache.misses + 1 })) ∧
      (∀ i, i < s.C → s.cache.slotAt i = none → (∀ j, j < i → (s.cache.slotAt j).isSome = true) →
        cacheStore a v s = .next ((s.setMem (Memory.write s.mem a v)).setCache
          { slots := s.cache.slots.set i (some { addr := a, val := v }), lru := i :: s.cache.lru,
            hits := s.cache.hits, misses := s.cache.misses + 1 })) ∧
      (∀ i l, (∀ j, j < s.C → (s.cache.slotAt j).isSome = true) → s.cache.lru = l ++ [i] →
        cacheStore a v s = .next ((s.setMem (Memory.write s.mem a v)).setCache
          { slots := s.cache.slots.set i (some { addr := a, val := v }), lru := i :: l,
            hits := s.cache.hits, misses := s.cache.misses + 1 })))

/-- R66: with no slots every access is a miss that goes straight to Memory, installs nothing and counts as a
miss. -/
def Obligations.CapacityZeroAlwaysMisses : Prop :=
  ∀ a v (s : State), s.C = 0 →
    s.cache.lookup a = none ∧
    (a < s.memLen → cacheLoad a s = .next (s.cell a, s.setCache
      { slots := [], lru := s.cache.lru, hits := s.cache.hits, misses := s.cache.misses + 1 })) ∧
    (a < s.memLen → cacheStore a v s = .next ((s.setMem (Memory.write s.mem a v)).setCache
      { slots := [], lru := s.cache.lru, hits := s.cache.hits, misses := s.cache.misses + 1 })) ∧
    s.cache.install a v = some s.cache ∧
    (s.memLen ≤ a → cacheLoad a s = .fault .outOfBounds ∧ cacheStore a v s = .fault .outOfBounds)

/-- R67, R72 (c): a cache load never writes Memory, and a cache store writes exactly its own cell, in any
state, whatever slot is evicted: nothing is written back. -/
def Obligations.EvictionWritesNothingBack : Prop :=
  (∀ a v (s t : State), cacheLoad a s = .next (v, t) → t.mem = s.mem) ∧
  (∀ a v (s t : State), cacheStore a v s = .next t → t.mem = Memory.write s.mem a v)

/-- R68: the recency order is changed by nothing but an access that completes, which puts its address in
front and keeps the order of the others, the last dropped when the cache is full; a faulting step leaves
it as it was. -/
def Obligations.OnlyAccessesChangeRecency : Prop :=
  (∀ i (s t : State), exec i s = .next t →
    (accessAddr i = none → t.cache = s.cache) ∧
    (∀ a, StateInv s → accessAddr i = some a →
      t.cache.addrs = (a :: s.cache.addrs.filter fun b => decide (b ≠ a)).take s.C)) ∧
  (∀ (s : State) k, step s = .fault k →
    s.request.cache.lru = s.cache.lru ∧ s.request.cache.addrs = s.cache.addrs)

/-- R73 (D12): exactly one counter is incremented by each access that completes, none otherwise, and always
`misses` when `C = 0`; in any state. -/
def Obligations.EachAccessCountsOnce : Prop :=
  ∀ i (s t : State), exec i s = .next t →
    (accessAddr i = none → t.cache.hits = s.cache.hits ∧ t.cache.misses = s.cache.misses) ∧
    (∀ a, accessAddr i = some a →
      ((s.cache.lookup a).isSome = true →
        t.cache.hits = s.cache.hits + 1 ∧ t.cache.misses = s.cache.misses) ∧
      (s.cache.lookup a = none → t.cache.hits = s.cache.hits ∧ t.cache.misses = s.cache.misses + 1) ∧
      (s.C = 0 → t.cache.hits = s.cache.hits ∧ t.cache.misses = s.cache.misses + 1))

/-- R72 (b): accesses to distinct addresses from an empty cache leave the last `C` of them cached, most
recent first; of `C + 1` accesses the first is evicted and every later one is held. -/
def Obligations.DistinctAccessesEvictTheFirst : Prop :=
  ∀ (is : List Instr) (as : List Nat) (s t : State), StateInv s → s.cache.lru = [] →
    is.map accessAddr = as.map some → as.Nodup → execAll is s = .next t →
    t.cache.addrs = as.reverse.take s.C ∧
    (∀ a bs, as = a :: bs → bs.length = s.C → a ∉ t.cache.addrs ∧ ∀ b ∈ bs, b ∈ t.cache.addrs)

/-! ### Control and the step (40_fetch_execute.md, 43_control.md) -/

/-- R161 whole (D5, D13): `Jump`'s word, its effect, and its fault, in any state. -/
def Obligations.JumpSetsPcWithinProgram : Prop :=
  (∀ t, t ≤ 16777215 → encode (.jump t) = some (0x05#8 ++ BitVec.ofNat 24 t)) ∧
  (∀ t (s : State), t < s.N → ∃ u, exec (.jump t) s = .next u ∧ u.pc = t ∧ u.x = s.x ∧ u.mem = s.mem ∧
    u.cache = s.cache ∧ SameSystem s u) ∧
  (∀ t (s : State), s.N ≤ t → exec (.jump t) s = .fault .invalidJumpTarget)

/-- R163 whole (D5, D6): `Halt`'s one word, its effect, and that nothing changes after it, however many
further steps are requested. -/
def Obligations.HaltStopsForGood : Prop :=
  encode .halt = some 0x06000000#32 ∧
  (∀ w : InstrWord, w.toNat / 2 ^ 24 = 6 → w.toNat % 2 ^ 24 ≠ 0 → decode w = .error .haltLowBitsSet) ∧
  (∀ s : State, ∃ t, exec .halt s = .next t ∧ t.run = .halted ∧ t.pc = s.pc ∧ t.x = s.x ∧ t.mem = s.mem ∧
    t.cache = s.cache ∧ t.lastFault = s.lastFault ∧ SameParams s t ∧ step t = .next t ∧
    ∀ n, t.runFor n = t)

/-- R126: the pc after each instruction that does not fault, and after a step that faults. -/
def Obligations.ProgramCounterUpdate : Prop :=
  ∀ s t : State,
    (∀ d s1 s2, exec (.add d s1 s2) s = .next t ∨ exec (.sub d s1 s2) s = .next t → t.pc = s.pc + 1) ∧
    (∀ d a, exec (.load d a) s = .next t → t.pc = s.pc + 1) ∧
    (∀ a r, exec (.store a r) s = .next t → t.pc = s.pc + 1) ∧
    (∀ k, exec (.jump k) s = .next t → t.pc = k) ∧
    (exec .halt s = .next t → t.pc = s.pc) ∧
    (∀ k, step s = .fault k → s.request.pc = s.pc)

/-- R125, the table of R165: what each instruction leaves unchanged when it completes, in any state. -/
def Obligations.FrameOfEveryInstruction : Prop :=
  ∀ s t : State,
    (∀ d s1 s2, exec (.add d s1 s2) s = .next t ∨ exec (.sub d s1 s2) s = .next t →
      (∀ r, r ≠ d → t.reg r = s.reg r) ∧ (∀ a, t.cell a = s.cell a) ∧ t.cache = s.cache ∧ SameSystem s t) ∧
    (∀ d a, exec (.load d a) s = .next t →
      (∀ r, r ≠ d → t.reg r = s.reg r) ∧ (∀ b, t.cell b = s.cell b) ∧ SameSystem s t) ∧
    (∀ a r, exec (.store a r) s = .next t →
      (∀ q, t.reg q = s.reg q) ∧ (∀ b, b ≠ a → t.cell b = s.cell b) ∧ SameSystem s t) ∧
    (∀ k, exec (.jump k) s = .next t →
      (∀ r, t.reg r = s.reg r) ∧ (∀ a, t.cell a = s.cell a) ∧ t.cache = s.cache ∧ SameSystem s t) ∧
    (exec .halt s = .next t →
      (∀ r, t.reg r = s.reg r) ∧ (∀ a, t.cell a = s.cell a) ∧ t.cache = s.cache ∧ t.pc = s.pc ∧
      t.lastFault = s.lastFault ∧ SameParams s t)

/-- R120 to R123: a step of a running machine is the meaning of the instruction at `pc`, decoded at the binary
level, and a completed one leaves the report "no fault" (R40, log 17). -/
def Obligations.StepRunsTheInstructionAtPc : Prop :=
  (∀ (s : State) ws w i, s.run = .running → s.program = .words ws → ws[s.pc]? = some w → decode w = .ok i →
    step s = retire (exec i s)) ∧
  (∀ (s : State) is i, s.run = .running → s.program = .instrs is → is[s.pc]? = some i →
    step s = retire (exec i s)) ∧
  (∀ (t : State), retire (.next t) = .next (t.setLastFault none)) ∧
  (∀ k, retire (.fault k) = .fault k)

/-- Log 2, log 25 (the model's own): placing a legal word with `withFetchWord` makes the very next step run
its instruction. -/
def Obligations.PlacedWordRunsNext : Prop :=
  ∀ (s : State) w i, w < 2 ^ 32 → decode (BitVec.ofNat 32 w) = .ok i →
    fetch (s.withFetchWord 32 w) = .instr i ∧
    step (s.withFetchWord 32 w) = retire (exec i (s.withFetchWord 32 w)) ∧
    (s.withFetchWord 32 w).x = s.x ∧ (s.withFetchWord 32 w).pc = s.pc ∧
    (s.withFetchWord 32 w).mem = s.mem ∧ (s.withFetchWord 32 w).cache = s.cache

/-- R121 (a requested step is a no-operation by D17): when the machine is stopped nothing changes, for ever;
it is stopped exactly when no instruction is fetched; with `N = 0` it is stopped from reset. -/
def Obligations.StoppedMachineNeverChanges : Prop :=
  (∀ s : State, s.run = .halted ∨ s.N ≤ s.pc → step s = .next s ∧ ∀ n, s.runFor n = s) ∧
  (∀ s : State, fetch s = .idle ↔ s.run = .halted ∨ s.N ≤ s.pc) ∧
  (∀ p : Config.Params, p.program.length = 0 → (State.resetWith p).stopped)

/-- R10: a program of words and the program of the instructions they decode to run alike, from any state,
for any number of steps: "from there on the abstract rules apply unchanged". -/
def Obligations.AbstractAndBinaryLevelsAgree : Prop :=
  ∀ (is : List Instr) (ws : List InstrWord) (s : State), ws.map decode = is.map Except.ok →
    ∀ n, (s.withProgram (.words ws)).runFor n =
      ((s.withProgram (.instrs is)).runFor n).withProgram (.words ws)

/-- R41: the cache, its contents, order, counters and capacity, is invisible to programs: two runs whose
states agree on all but the cache agree on all but the cache after every number of steps. -/
def Obligations.CacheIsInvisibleToPrograms : Prop :=
  ∀ s t : State, StateInv s → StateInv t → AgreeButCache s t → ∀ n, AgreeButCache (s.runFor n) (t.runFor n)

/-- R130: the sequence of pcs, and whether and how the run stops, do not depend on register, Memory or cache
contents. -/
def Obligations.ControlFlowIgnoresData : Prop :=
  ∀ s t : State, StateInv s → StateInv t → AgreeOnControl s t → ∀ n, AgreeOnControl (s.runFor n) (t.runFor n)

/-- R130: a run ends if and only if it never executes the same index twice, and then within `N` steps. -/
def Obligations.RunsEndWithinProgramLengthOrNever : Prop :=
  ∀ s : State, StateInv s →
    (Ends s ↔ (s.runFor s.N).stopReason ≠ none) ∧
    (Ends s ↔ ∀ m n, m < n → (s.runFor n).stopReason = none → (s.runFor m).pc ≠ (s.runFor n).pc)

/-- R130, program P5: a jump to itself loops for ever, the state as it was after every step. -/
def Obligations.JumpToSelfNeverEnds : Prop :=
  ∀ s : State, fetch s = .instr (.jump s.pc) → s.lastFault = none →
    ∀ n, s.runFor n = s ∧ (s.runFor n).stopReason = none

/-- R131: what the state is when a run ends, for each of the three reasons. -/
def Obligations.StateAtTheEndOfARun : Prop :=
  ∀ (s : State) n, StateInv s → s.run = .running → s.lastFault = none →
    ((s.runFor n).stopReason = some .halted →
      (s.runFor n).run = .halted ∧ programAt (s.runFor n).program (s.runFor n).pc = .instr .halt) ∧
    ((s.runFor n).stopReason = some .exhausted →
      (s.runFor n).run = .running ∧ (s.runFor n).pc = (s.runFor n).N) ∧
    (∀ k, (s.runFor n).stopReason = some (.faulted k) →
      (s.runFor n).run = .running ∧ (s.runFor n).pc < (s.runFor n).N ∧ step (s.runFor n) = .fault k)

/-! ### Faults (60_exceptions.md) -/

/-- R171, R172, R173, R174 (the spec's decision D7, log 8): each fault kind, its causes and no others; no fetch
raises `OutOfBounds`; `IllegalInstruction` is raised by no instruction and by every illegal word; the host's
register access raises `InvalidRegister` alike. -/
def Obligations.CausesOfEachFault : Prop :=
  (∀ i (s : State), StateInv s →
    (exec i s = .fault .outOfBounds ↔
      (∃ d a, i = .load d a ∧ d < 32 ∧ s.memLen ≤ a) ∨ (∃ a r, i = .store a r ∧ r < 32 ∧ s.memLen ≤ a)) ∧
    (exec i s = .fault .invalidRegister ↔
      (∃ d s1 s2, (i = .add d s1 s2 ∨ i = .sub d s1 s2) ∧ (32 ≤ d ∨ 32 ≤ s1 ∨ 32 ≤ s2)) ∨
      (∃ d a, i = .load d a ∧ 32 ≤ d) ∨ (∃ a r, i = .store a r ∧ 32 ≤ r)) ∧
    (exec i s = .fault .invalidJumpTarget ↔ ∃ t, i = .jump t ∧ s.N ≤ t) ∧
    exec i s ≠ .fault .illegalInstruction) ∧
  (∀ s k, step s = .fault k → k ≠ .illegalInstruction → ∃ i, fetch s = .instr i ∧ exec i s = .fault k) ∧
  (∀ s, step s = .fault .illegalInstruction ↔ ∃ why, fetch s = .illegal why) ∧
  (∀ (s : State) i v, 32 ≤ i →
    readRegister s i = .error .invalidRegister ∧ writeRegister s i v = .error .invalidRegister)

/-- R179 (D9): a bad register index is reported before a bad address, in any state. -/
def Obligations.RegisterFaultTakesPriority : Prop :=
  ∀ r a (s : State), 32 ≤ r → s.memLen ≤ a →
    exec (.load r a) s = .fault .invalidRegister ∧ exec (.store a r) s = .fault .invalidRegister

/-- R176: a faulting step leaves every register, the pc, `run`, Memory, the slots, the recency order and the
counters exactly as they were, and the parameters too. -/
def Obligations.FaultsArePrecise : Prop :=
  ∀ (s : State) k, step s = .fault k →
    s.request.x = s.x ∧ s.request.pc = s.pc ∧ s.request.run = s.run ∧ s.request.mem = s.mem ∧
    s.request.cache.slots = s.cache.slots ∧ s.request.cache.lru = s.cache.lru ∧
    s.request.cache.hits = s.cache.hits ∧ s.request.cache.misses = s.cache.misses ∧ SameParams s s.request

/-- R177 (D10): a fault is recorded as the outcome of the last step, the driving loop stops there with `run`
still Running, and no further step is taken. -/
def Obligations.RunStopsAtItsFirstFault : Prop :=
  ∀ (s : State) k, step s = .fault k → s.lastFault = none →
    s.request = s.setLastFault (some k) ∧ s.request.run = .running ∧
    s.request.stopReason = some (.faulted k) ∧ ∀ n, s.request.runFor n = s.request

/-- R177: were the same step re-issued, it would fault again in the same way: the fault report is read by no
step. -/
def Obligations.ReissuedStepFaultsAgain : Prop :=
  ∀ (s : State) k r, step s = .fault k → step (s.setLastFault r) = .fault k

/-- R175 (D8): the cause codes. -/
def Obligations.CauseCodes : Prop :=
  outcomeCode none = 0 ∧ outcomeCode (some .outOfBounds) = 1 ∧ outcomeCode (some .invalidRegister) = 2 ∧
  outcomeCode (some .invalidJumpTarget) = 3 ∧ outcomeCode (some .illegalInstruction) = 4

/-- R206: a run never faults if and only if every instruction on its path is legal and in bounds; a program
that is so throughout never faults. -/
def Obligations.RunIsFaultFreeIffPathInBounds : Prop :=
  (∀ s : State, StateInv s → s.lastFault = none →
    ((∀ n, (s.runFor n).lastFault = none) ↔
      ∀ n, (s.runFor n).stopReason = none →
        fetchedInBounds s.memLen s.N (fetch (s.runFor n)) = true)) ∧
  (∀ s : State, StateInv s → s.lastFault = none → programInBounds s.memLen s.program = true →
    ∀ n, (s.runFor n).lastFault = none)
end

