-- ==== Sys2Proof/Laws/State.lean ====
section
/-! SUPPORT. One lemma per field and update of the state, true by definition, so that no proof unfolds a
record update. -/

namespace Sys2Proof.Machine

/-! ### `setReg` -/

@[simp] theorem State.setReg_memLen (s : State) (i : Nat) (v : Word) : (s.setReg i v).memLen = s.memLen := rfl
@[simp] theorem State.setReg_program (s : State) (i : Nat) (v : Word) : (s.setReg i v).program = s.program := rfl
@[simp] theorem State.setReg_x (s : State) (i : Nat) (v : Word) : (s.setReg i v).x = s.x.setIfInBounds i v := rfl
@[simp] theorem State.setReg_pc (s : State) (i : Nat) (v : Word) : (s.setReg i v).pc = s.pc := rfl
@[simp] theorem State.setReg_run (s : State) (i : Nat) (v : Word) : (s.setReg i v).run = s.run := rfl
@[simp] theorem State.setReg_mem (s : State) (i : Nat) (v : Word) : (s.setReg i v).mem = s.mem := rfl
@[simp] theorem State.setReg_cache (s : State) (i : Nat) (v : Word) : (s.setReg i v).cache = s.cache := rfl
@[simp] theorem State.setReg_lastFault (s : State) (i : Nat) (v : Word) : (s.setReg i v).lastFault = s.lastFault := rfl
@[simp] theorem State.setReg_N (s : State) (i : Nat) (v : Word) : (s.setReg i v).N = s.N := rfl
@[simp] theorem State.setReg_C (s : State) (i : Nat) (v : Word) : (s.setReg i v).C = s.C := rfl
@[simp] theorem State.setReg_cell (s : State) (i : Nat) (v : Word) (a : Nat) : (s.setReg i v).cell a = s.cell a := rfl

/-! ### `advance` -/

@[simp] theorem State.advance_memLen (s : State) : s.advance.memLen = s.memLen := rfl
@[simp] theorem State.advance_program (s : State) : s.advance.program = s.program := rfl
@[simp] theorem State.advance_x (s : State) : s.advance.x = s.x := rfl
@[simp] theorem State.advance_pc (s : State) : s.advance.pc = s.pc + 1 := rfl
@[simp] theorem State.advance_run (s : State) : s.advance.run = s.run := rfl
@[simp] theorem State.advance_mem (s : State) : s.advance.mem = s.mem := rfl
@[simp] theorem State.advance_cache (s : State) : s.advance.cache = s.cache := rfl
@[simp] theorem State.advance_lastFault (s : State) : s.advance.lastFault = s.lastFault := rfl
@[simp] theorem State.advance_N (s : State) : s.advance.N = s.N := rfl
@[simp] theorem State.advance_C (s : State) : s.advance.C = s.C := rfl
@[simp] theorem State.advance_reg (s : State) (r : Nat) : s.advance.reg r = s.reg r := rfl
@[simp] theorem State.advance_cell (s : State) (a : Nat) : s.advance.cell a = s.cell a := rfl

/-! ### `jumpTo` -/

@[simp] theorem State.jumpTo_memLen (s : State) (t : Nat) : (s.jumpTo t).memLen = s.memLen := rfl
@[simp] theorem State.jumpTo_program (s : State) (t : Nat) : (s.jumpTo t).program = s.program := rfl
@[simp] theorem State.jumpTo_x (s : State) (t : Nat) : (s.jumpTo t).x = s.x := rfl
@[simp] theorem State.jumpTo_pc (s : State) (t : Nat) : (s.jumpTo t).pc = t := rfl
@[simp] theorem State.jumpTo_run (s : State) (t : Nat) : (s.jumpTo t).run = s.run := rfl
@[simp] theorem State.jumpTo_mem (s : State) (t : Nat) : (s.jumpTo t).mem = s.mem := rfl
@[simp] theorem State.jumpTo_cache (s : State) (t : Nat) : (s.jumpTo t).cache = s.cache := rfl
@[simp] theorem State.jumpTo_lastFault (s : State) (t : Nat) : (s.jumpTo t).lastFault = s.lastFault := rfl
@[simp] theorem State.jumpTo_N (s : State) (t : Nat) : (s.jumpTo t).N = s.N := rfl
@[simp] theorem State.jumpTo_C (s : State) (t : Nat) : (s.jumpTo t).C = s.C := rfl
@[simp] theorem State.jumpTo_reg (s : State) (t : Nat) (r : Nat) : (s.jumpTo t).reg r = s.reg r := rfl
@[simp] theorem State.jumpTo_cell (s : State) (t : Nat) (a : Nat) : (s.jumpTo t).cell a = s.cell a := rfl

/-! ### `halt` -/

@[simp] theorem State.halt_memLen (s : State) : s.halt.memLen = s.memLen := rfl
@[simp] theorem State.halt_program (s : State) : s.halt.program = s.program := rfl
@[simp] theorem State.halt_x (s : State) : s.halt.x = s.x := rfl
@[simp] theorem State.halt_pc (s : State) : s.halt.pc = s.pc := rfl
@[simp] theorem State.halt_run (s : State) : s.halt.run = RunState.halted := rfl
@[simp] theorem State.halt_mem (s : State) : s.halt.mem = s.mem := rfl
@[simp] theorem State.halt_cache (s : State) : s.halt.cache = s.cache := rfl
@[simp] theorem State.halt_lastFault (s : State) : s.halt.lastFault = s.lastFault := rfl
@[simp] theorem State.halt_N (s : State) : s.halt.N = s.N := rfl
@[simp] theorem State.halt_C (s : State) : s.halt.C = s.C := rfl
@[simp] theorem State.halt_reg (s : State) (r : Nat) : s.halt.reg r = s.reg r := rfl
@[simp] theorem State.halt_cell (s : State) (a : Nat) : s.halt.cell a = s.cell a := rfl

/-! ### `setMem` -/

@[simp] theorem State.setMem_memLen (s : State) (m : Memory) : (s.setMem m).memLen = s.memLen := rfl
@[simp] theorem State.setMem_program (s : State) (m : Memory) : (s.setMem m).program = s.program := rfl
@[simp] theorem State.setMem_x (s : State) (m : Memory) : (s.setMem m).x = s.x := rfl
@[simp] theorem State.setMem_pc (s : State) (m : Memory) : (s.setMem m).pc = s.pc := rfl
@[simp] theorem State.setMem_run (s : State) (m : Memory) : (s.setMem m).run = s.run := rfl
@[simp] theorem State.setMem_mem (s : State) (m : Memory) : (s.setMem m).mem = m := rfl
@[simp] theorem State.setMem_cache (s : State) (m : Memory) : (s.setMem m).cache = s.cache := rfl
@[simp] theorem State.setMem_lastFault (s : State) (m : Memory) : (s.setMem m).lastFault = s.lastFault := rfl
@[simp] theorem State.setMem_N (s : State) (m : Memory) : (s.setMem m).N = s.N := rfl
@[simp] theorem State.setMem_C (s : State) (m : Memory) : (s.setMem m).C = s.C := rfl
@[simp] theorem State.setMem_reg (s : State) (m : Memory) (r : Nat) : (s.setMem m).reg r = s.reg r := rfl

/-! ### `setCache` -/

@[simp] theorem State.setCache_memLen (s : State) (c : Cache) : (s.setCache c).memLen = s.memLen := rfl
@[simp] theorem State.setCache_program (s : State) (c : Cache) : (s.setCache c).program = s.program := rfl
@[simp] theorem State.setCache_x (s : State) (c : Cache) : (s.setCache c).x = s.x := rfl
@[simp] theorem State.setCache_pc (s : State) (c : Cache) : (s.setCache c).pc = s.pc := rfl
@[simp] theorem State.setCache_run (s : State) (c : Cache) : (s.setCache c).run = s.run := rfl
@[simp] theorem State.setCache_mem (s : State) (c : Cache) : (s.setCache c).mem = s.mem := rfl
@[simp] theorem State.setCache_cache (s : State) (c : Cache) : (s.setCache c).cache = c := rfl
@[simp] theorem State.setCache_lastFault (s : State) (c : Cache) : (s.setCache c).lastFault = s.lastFault := rfl
@[simp] theorem State.setCache_N (s : State) (c : Cache) : (s.setCache c).N = s.N := rfl
@[simp] theorem State.setCache_C (s : State) (c : Cache) : (s.setCache c).C = c.slots.length := rfl
@[simp] theorem State.setCache_reg (s : State) (c : Cache) (r : Nat) : (s.setCache c).reg r = s.reg r := rfl
@[simp] theorem State.setCache_cell (s : State) (c : Cache) (a : Nat) : (s.setCache c).cell a = s.cell a := rfl

/-! ### `setLastFault` -/

@[simp] theorem State.setLastFault_memLen (s : State) (k : Option Fault) : (s.setLastFault k).memLen = s.memLen := rfl
@[simp] theorem State.setLastFault_program (s : State) (k : Option Fault) : (s.setLastFault k).program = s.program := rfl
@[simp] theorem State.setLastFault_x (s : State) (k : Option Fault) : (s.setLastFault k).x = s.x := rfl
@[simp] theorem State.setLastFault_pc (s : State) (k : Option Fault) : (s.setLastFault k).pc = s.pc := rfl
@[simp] theorem State.setLastFault_run (s : State) (k : Option Fault) : (s.setLastFault k).run = s.run := rfl
@[simp] theorem State.setLastFault_mem (s : State) (k : Option Fault) : (s.setLastFault k).mem = s.mem := rfl
@[simp] theorem State.setLastFault_cache (s : State) (k : Option Fault) : (s.setLastFault k).cache = s.cache := rfl
@[simp] theorem State.setLastFault_lastFault (s : State) (k : Option Fault) : (s.setLastFault k).lastFault = k := rfl
@[simp] theorem State.setLastFault_N (s : State) (k : Option Fault) : (s.setLastFault k).N = s.N := rfl
@[simp] theorem State.setLastFault_C (s : State) (k : Option Fault) : (s.setLastFault k).C = s.C := rfl
@[simp] theorem State.setLastFault_reg (s : State) (k : Option Fault) (r : Nat) : (s.setLastFault k).reg r = s.reg r := rfl
@[simp] theorem State.setLastFault_cell (s : State) (k : Option Fault) (a : Nat) : (s.setLastFault k).cell a = s.cell a := rfl

@[simp] theorem State.setMem_cell (s : State) (m : Memory) (a : Nat) :
    (s.setMem m).cell a = Memory.read m a := rfl

/-! ### Registers -/

@[simp] theorem State.reg_setReg_same (s : State) (i : Nat) (v : Word) (h : i < 32) :
    (s.setReg i v).reg i = v := by
  simp [State.reg, State.setReg, h]

@[simp] theorem State.reg_setReg_other (s : State) (i r : Nat) (v : Word) (h : r ≠ i) :
    (s.setReg i v).reg r = s.reg r := by
  simp [State.reg, State.setReg, Ne.symm h]

/-- Registers with the same contents are the same register file. -/
theorem State.x_ext {s t : State} (h : ∀ r < 32, t.reg r = s.reg r) : t.x = s.x := by
  apply Vector.ext
  intro i hi
  simpa [State.reg, hi] using h i hi

/-! ### Cache updates -/

@[simp] theorem Cache.touch_slots (c : Cache) (i : Nat) : (c.touch i).slots = c.slots := rfl
@[simp] theorem Cache.touch_lru (c : Cache) (i : Nat) : (c.touch i).lru = i :: c.lru.erase i := rfl
@[simp] theorem Cache.touch_hits (c : Cache) (i : Nat) : (c.touch i).hits = c.hits := rfl
@[simp] theorem Cache.touch_misses (c : Cache) (i : Nat) : (c.touch i).misses = c.misses := rfl
@[simp] theorem Cache.fill_slots (c : Cache) (i a : Nat) (v : Word) :
    (c.fill i a v).slots = c.slots.set i (some { addr := a, val := v }) := rfl
@[simp] theorem Cache.fill_lru (c : Cache) (i a : Nat) (v : Word) : (c.fill i a v).lru = c.lru := rfl
@[simp] theorem Cache.fill_hits (c : Cache) (i a : Nat) (v : Word) : (c.fill i a v).hits = c.hits := rfl
@[simp] theorem Cache.fill_misses (c : Cache) (i a : Nat) (v : Word) :
    (c.fill i a v).misses = c.misses := rfl
@[simp] theorem Cache.evict_slots (c : Cache) (i : Nat) : (c.evict i).slots = c.slots.set i none := rfl
@[simp] theorem Cache.evict_lru (c : Cache) (i : Nat) : (c.evict i).lru = c.lru.dropLast := rfl
@[simp] theorem Cache.evict_hits (c : Cache) (i : Nat) : (c.evict i).hits = c.hits := rfl
@[simp] theorem Cache.evict_misses (c : Cache) (i : Nat) : (c.evict i).misses = c.misses := rfl
@[simp] theorem Cache.pushFront_slots (c : Cache) (i : Nat) : (c.pushFront i).slots = c.slots := rfl
@[simp] theorem Cache.pushFront_lru (c : Cache) (i : Nat) : (c.pushFront i).lru = i :: c.lru := rfl
@[simp] theorem Cache.pushFront_hits (c : Cache) (i : Nat) : (c.pushFront i).hits = c.hits := rfl
@[simp] theorem Cache.pushFront_misses (c : Cache) (i : Nat) : (c.pushFront i).misses = c.misses := rfl
@[simp] theorem Cache.countHit_slots (c : Cache) : c.countHit.slots = c.slots := rfl
@[simp] theorem Cache.countHit_lru (c : Cache) : c.countHit.lru = c.lru := rfl
@[simp] theorem Cache.countHit_hits (c : Cache) : c.countHit.hits = c.hits + 1 := rfl
@[simp] theorem Cache.countHit_misses (c : Cache) : c.countHit.misses = c.misses := rfl
@[simp] theorem Cache.countMiss_slots (c : Cache) : c.countMiss.slots = c.slots := rfl
@[simp] theorem Cache.countMiss_lru (c : Cache) : c.countMiss.lru = c.lru := rfl
@[simp] theorem Cache.countMiss_hits (c : Cache) : c.countMiss.hits = c.hits := rfl
@[simp] theorem Cache.countMiss_misses (c : Cache) : c.countMiss.misses = c.misses + 1 := rfl

/-! ### Outcomes in sequence -/

@[simp] theorem andThen_next {α β : Type} (a : α) (f : α → Result β) : andThen (.next a) f = f a := rfl
@[simp] theorem andThen_fault {α β : Type} (k : Fault) (f : α → Result β) :
    andThen (.fault k) f = .fault k := rfl
@[simp] theorem andThen_refused {α β : Type} (q : Refusal) (f : α → Result β) :
    andThen (.refused q) f = .refused q := rfl

/-- A sequence that completes: its first part completed, and its second from there. -/
theorem andThen_eq_next {α β : Type} {r : Result α} {f : α → Result β} {b : β} :
    andThen r f = .next b ↔ ∃ a, r = .next a ∧ f a = .next b := by
  cases r <;> simp

/-- A sequence that faults: its first part faulted, or it completed and its second faulted. -/
theorem andThen_eq_fault {α β : Type} {r : Result α} {f : α → Result β} {k : Fault} :
    andThen r f = .fault k ↔ r = .fault k ∨ ∃ a, r = .next a ∧ f a = .fault k := by
  cases r <;> simp

/-- A sequence that is refused: its first part was, or it completed and its second was. -/
theorem andThen_eq_refused {α β : Type} {r : Result α} {f : α → Result β} {q : Refusal} :
    andThen r f = .refused q ↔ r = .refused q ∨ ∃ a, r = .next a ∧ f a = .refused q := by
  cases r <;> simp

end Sys2Proof.Machine
end

