-- ==== Sys2Proof/Laws/Memory.lean ====
section
/-! SUPPORT. Laws of Memory: read after write, frame, and that every operation keeps the canonical form. -/

namespace Sys2Proof.Machine

@[simp] theorem Memory.read_nil (a : Nat) : Memory.read [] a = 0#Config.XLEN := rfl

/-- Only listed cells differ from 0. -/
theorem Memory.read_eq_zero {m : Memory} {a : Nat} (h : ∀ c ∈ m, c.1 ≠ a) : Memory.read m a = 0#Config.XLEN := by
  induction m with
  | nil => rfl
  | cons c m ih =>
    simp only [List.mem_cons, forall_eq_or_imp] at h
    simp [Memory.read, h.1, ih h.2]

theorem Memory.wf_tail {c : Nat × Word} {m : Memory} (h : Memory.wf (c :: m)) : Memory.wf m :=
  ⟨(List.pairwise_cons.1 h.1).2, fun d hd => h.2 d (List.mem_cons_of_mem _ hd)⟩

theorem Memory.wf_head {c : Nat × Word} {m : Memory} (h : Memory.wf (c :: m)) : ∀ d ∈ m, c.1 < d.1 :=
  (List.pairwise_cons.1 h.1).1

/-- Frame: a write leaves every other cell alone, whatever the list. -/
theorem Memory.read_write_other (m : Memory) {a b : Nat} (v : Word) (h : b ≠ a) :
    Memory.read (Memory.write m a v) b = Memory.read m b := by
  induction m with
  | nil => by_cases hv : v = 0#Config.XLEN <;> simp [Memory.write, Memory.read, hv, Ne.symm h]
  | cons c m ih =>
    obtain ⟨k, u⟩ := c
    by_cases h1 : a < k
    · by_cases hv : v = 0#Config.XLEN <;> simp [Memory.write, Memory.read, h1, hv, Ne.symm h]
    · by_cases h2 : a = k
      · subst h2
        by_cases hv : v = 0#Config.XLEN <;> simp [Memory.write, Memory.read, hv, Ne.symm h]
      · simp [Memory.write, Memory.read, h1, h2, ih]

/-- Read after write, on a Memory in canonical form. -/
theorem Memory.read_write_same {m : Memory} (hm : Memory.wf m) (a : Nat) (v : Word) :
    Memory.read (Memory.write m a v) a = v := by
  induction m with
  | nil => by_cases hv : v = 0#Config.XLEN <;> simp [Memory.write, Memory.read, hv]
  | cons c m ih =>
    obtain ⟨k, u⟩ := c
    have hlt := Memory.wf_head hm
    by_cases h1 : a < k
    · by_cases hv : v = 0#Config.XLEN
      · have : ∀ c ∈ m, c.1 ≠ a := fun c hc e => by have := hlt c hc; simp at this; omega
        simp [Memory.write, Memory.read, h1, hv, Memory.read_eq_zero this, (Nat.ne_of_lt h1).symm]
      · simp [Memory.write, Memory.read, h1, hv]
    · by_cases h2 : a = k
      · subst h2
        by_cases hv : v = 0#Config.XLEN
        · have : ∀ c ∈ m, c.1 ≠ a := fun c hc e => by have := hlt c hc; simp at this; omega
          simp [Memory.write, hv, Memory.read_eq_zero this]
        · simp [Memory.write, Memory.read, hv]
      · simp [Memory.write, Memory.read, h1, h2, Ne.symm h2, ih (Memory.wf_tail hm)]

/-- A written cell is the new one or an old one. -/
theorem Memory.mem_write {m : Memory} {a : Nat} {v : Word} {c : Nat × Word} (h : c ∈ Memory.write m a v) :
    (c = (a, v) ∧ v ≠ 0#Config.XLEN) ∨ c ∈ m := by
  induction m with
  | nil => by_cases hv : v = 0#Config.XLEN <;> simp_all [Memory.write]
  | cons d m ih =>
    obtain ⟨k, u⟩ := d
    by_cases h1 : a < k
    · by_cases hv : v = 0#Config.XLEN <;> simp_all [Memory.write]
    · by_cases h2 : a = k
      · by_cases hv : v = 0#Config.XLEN
        · simp_all [Memory.write]
        · simp_all [Memory.write]; tauto
      · simp only [Memory.write, h1, h2, if_false, List.mem_cons] at h
        rcases h with h | h
        · exact .inr (h ▸ List.mem_cons_self)
        · exact (ih h).imp id (List.mem_cons_of_mem _)

theorem Memory.wf_nil : Memory.wf [] := ⟨.nil, by simp⟩

/-- A write keeps the canonical form. -/
theorem Memory.write_wf {m : Memory} (hm : Memory.wf m) (a : Nat) (v : Word) :
    Memory.wf (Memory.write m a v) := by
  refine ⟨?_, fun c hc => ?_⟩
  · induction m with
    | nil => by_cases hv : v = 0#Config.XLEN <;> simp [Memory.write, hv]
    | cons c m ih =>
      obtain ⟨k, u⟩ := c
      have hlt := Memory.wf_head hm
      have hp := hm.1
      by_cases h1 : a < k
      · by_cases hv : v = 0#Config.XLEN
        · simpa [Memory.write, h1, hv] using hp
        · simp only [Memory.write, h1, hv, if_true, if_false]
          refine List.pairwise_cons.2 ⟨fun d hd => ?_, hp⟩
          rcases List.mem_cons.1 hd with rfl | hd
          · exact h1
          · exact Nat.lt_trans h1 (hlt d hd)
      · by_cases h2 : a = k
        · subst h2
          by_cases hv : v = 0#Config.XLEN
          · simpa [Memory.write, hv] using (List.pairwise_cons.1 hp).2
          · simp only [Memory.write, hv, if_false, Nat.lt_irrefl, if_true]
            exact List.pairwise_cons.2 ⟨hlt, (List.pairwise_cons.1 hp).2⟩
        · simp only [Memory.write, h1, h2, if_false]
          refine List.pairwise_cons.2 ⟨fun d hd => ?_, ih (Memory.wf_tail hm)⟩
          rcases Memory.mem_write hd with ⟨rfl, -⟩ | hd
          · simp only; omega
          · exact hlt d hd
  · rcases Memory.mem_write hc with ⟨rfl, h⟩ | h
    · exact h
    · exact hm.2 c h

/-- A write within Memory keeps every listed cell within Memory. -/
theorem Memory.write_below {n : Nat} {m : Memory} (hm : Memory.below n m) {a : Nat} (ha : a < n) (v : Word) :
    Memory.below n (Memory.write m a v) := fun c hc => by
  rcases Memory.mem_write hc with ⟨rfl, -⟩ | h
  · exact ha
  · exact hm c h

/-- `MemRead` says all it can do. -/
theorem memRead_eq (a : Nat) (s : State) :
    (a < s.memLen ∧ memRead a s = .next (s.cell a)) ∨ (s.memLen ≤ a ∧ memRead a s = .fault .outOfBounds) := by
  by_cases h : a < s.memLen
  · exact .inl ⟨h, by simp [memRead, h]⟩
  · exact .inr ⟨by omega, by simp [memRead, h]⟩

/-- `MemWrite` says all it can do. -/
theorem memWrite_eq (a : Nat) (v : Word) (s : State) :
    (a < s.memLen ∧ memWrite a v s = .next (s.setMem (Memory.write s.mem a v))) ∨
      (s.memLen ≤ a ∧ memWrite a v s = .fault .outOfBounds) := by
  by_cases h : a < s.memLen
  · exact .inl ⟨h, by simp [memWrite, h]⟩
  · exact .inr ⟨by omega, by simp [memWrite, h]⟩

end Sys2Proof.Machine
end

