-- ==== Sys2Proof/Laws/Cache.lean ====
section
/-! SUPPORT. Laws of the cache: what each operation does to the invariants I1 to I6 and to the recency
sequence of 20_memory.md R70. -/

namespace Sys2Proof.Machine

/-! ### Slots -/

theorem Cache.slotAt_eq_some {c : Cache} {i : Nat} {e : Slot} :
    c.slotAt i = some e ↔ c.slots[i]? = some (some e) := by
  simp [Cache.slotAt, Option.join_eq_some_iff]

theorem Cache.slotAt_lt {c : Cache} {i : Nat} {e : Slot} (h : c.slotAt i = some e) : i < c.slots.length := by
  rw [Cache.slotAt_eq_some] at h
  exact (List.getElem?_eq_some_iff.1 h).1

theorem Cache.slotAt_of_length_le {c : Cache} {i : Nat} (h : c.slots.length ≤ i) : c.slotAt i = none := by
  simp [Cache.slotAt, h]

/-- Slots of a cache whose slot `i` was set. -/
theorem join_getElem?_set (l : List (Option Slot)) (i j : Nat) (v : Option Slot) :
    ((l.set i v)[j]?).join = if i = j ∧ i < l.length then v else (l[j]?).join := by
  rw [List.getElem?_set]
  by_cases h : i = j
  · subst h
    by_cases hl : i < l.length
    · simp [hl]
    · simp [hl]
  · simp [h]

@[simp] theorem Cache.touch_slotAt (c : Cache) (i j : Nat) : (c.touch i).slotAt j = c.slotAt j := rfl
@[simp] theorem Cache.pushFront_slotAt (c : Cache) (i j : Nat) : (c.pushFront i).slotAt j = c.slotAt j := rfl
@[simp] theorem Cache.countHit_slotAt (c : Cache) (j : Nat) : c.countHit.slotAt j = c.slotAt j := rfl
@[simp] theorem Cache.countMiss_slotAt (c : Cache) (j : Nat) : c.countMiss.slotAt j = c.slotAt j := rfl
@[simp] theorem Cache.countHit_queue (c : Cache) : c.countHit.queue = c.queue := rfl
@[simp] theorem Cache.countMiss_queue (c : Cache) : c.countMiss.queue = c.queue := rfl

theorem Cache.fill_slotAt (c : Cache) (i j a : Nat) (v : Word) :
    (c.fill i a v).slotAt j = if i = j ∧ i < c.slots.length then some { addr := a, val := v } else c.slotAt j :=
  join_getElem?_set ..

theorem Cache.evict_slotAt (c : Cache) (i j : Nat) :
    (c.evict i).slotAt j = if i = j ∧ i < c.slots.length then none else c.slotAt j :=
  join_getElem?_set ..

/-! ### The invariants, without bounds on the slot numbers -/

theorem CacheInv.slot_unique {n : Nat} {m : Memory} {c : Cache} (h : CacheInv n m c) {i j : Nat} {e f : Slot}
    (hi : c.slotAt i = some e) (hj : c.slotAt j = some f) (ha : e.addr = f.addr) : i = j :=
  h.noDuplicate i (Cache.slotAt_lt hi) j (Cache.slotAt_lt hj) e hi f hj ha

theorem CacheInv.slot_lt {n : Nat} {m : Memory} {c : Cache} (h : CacheInv n m c) {i : Nat} {e : Slot}
    (hi : c.slotAt i = some e) : e.addr < n :=
  h.inRange i (Cache.slotAt_lt hi) e hi

theorem CacheInv.slot_val {n : Nat} {m : Memory} {c : Cache} (h : CacheInv n m c) {i : Nat} {e : Slot}
    (hi : c.slotAt i = some e) : e.val = Memory.read m e.addr :=
  h.coherent i (Cache.slotAt_lt hi) e hi

theorem CacheInv.mem_lru {n : Nat} {m : Memory} {c : Cache} (h : CacheInv n m c) (i : Nat) :
    i ∈ c.lru ↔ (c.slotAt i).isSome := by
  refine ⟨h.lruValid i, fun hi => ?_⟩
  obtain ⟨e, he⟩ := Option.isSome_iff_exists.1 hi
  exact h.validLru i (Cache.slotAt_lt he) hi

/-- How many indices of a list hold something. -/
theorem filter_range_length (l : List (Option Slot)) :
    ((List.range l.length).filter fun i => (l[i]?).join.isSome).length = l.countP Option.isSome := by
  induction l with
  | nil => rfl
  | cons o l ih =>
    rw [List.length_cons, List.range_succ_eq_map, List.filter_cons, List.filter_map, List.countP_cons]
    have : ((fun i => ((o :: l)[i]?).join.isSome) ∘ Nat.succ) = fun i => (l[i]?).join.isSome := by
      funext i; simp
    rw [this]
    cases o <;> simp [ih]

/-- I6 follows from I4 and I5. -/
theorem Cache.lru_length {c : Cache} (hnd : c.lru.Nodup) (h : ∀ i, i ∈ c.lru ↔ (c.slotAt i).isSome) :
    c.lru.length = c.validCount := by
  have hp : c.lru.Perm ((List.range c.slots.length).filter fun i => (c.slotAt i).isSome) := by
    refine (List.perm_ext_iff_of_nodup hnd (List.nodup_range.filter _)).2 fun i => ?_
    rw [h i, List.mem_filter, List.mem_range]
    refine ⟨fun hs => ⟨?_, hs⟩, fun hs => hs.2⟩
    obtain ⟨e, he⟩ := Option.isSome_iff_exists.1 hs
    exact Cache.slotAt_lt he
  rw [hp.length_eq]
  exact filter_range_length c.slots

/-- The invariants from their unbounded forms. -/
theorem CacheInv.of_slots {n : Nat} {m : Memory} {c : Cache}
    (h1 : ∀ i j e f, c.slotAt i = some e → c.slotAt j = some f → e.addr = f.addr → i = j)
    (h2 : ∀ i e, c.slotAt i = some e → e.addr < n)
    (h3 : ∀ i e, c.slotAt i = some e → e.val = Memory.read m e.addr)
    (h4 : ∀ i, i ∈ c.lru ↔ (c.slotAt i).isSome)
    (h5 : c.lru.Nodup) : CacheInv n m c where
  noDuplicate i _ j _ e he f hf := h1 i j e f he hf
  inRange i _ e he := h2 i e he
  coherent i _ e he := h3 i e he
  lruValid i hi := (h4 i).1 hi
  validLru i _ hi := (h4 i).2 hi
  lruNodup := h5
  lruLength := by
    have := Cache.lru_length h5 h4
    exact ⟨this, this ▸ List.countP_le_length⟩

/-- The counters take no part in the invariants. -/
theorem CacheInv.congr {n : Nat} {m : Memory} {c d : Cache} (h : CacheInv n m c) (hs : d.slots = c.slots)
    (hl : d.lru = c.lru) : CacheInv n m d := by
  obtain ⟨sl, l, _, _⟩ := d
  obtain ⟨sl', l', _, _⟩ := c
  obtain rfl : sl = sl' := hs
  obtain rfl : l = l' := hl
  exact ⟨h.noDuplicate, h.inRange, h.coherent, h.lruValid, h.validLru, h.lruNodup, h.lruLength⟩

/-- An empty cache meets the invariants (R203). -/
theorem CacheInv.empty (n : Nat) (m : Memory) (k : Nat) (h d : Counter) :
    CacheInv n m { slots := List.replicate k none, lru := [], hits := h, misses := d } := by
  have hs : ∀ i, (⟨List.replicate k none, [], h, d⟩ : Cache).slotAt i = none := fun i => by
    by_cases hi : i < k <;> simp [Cache.slotAt, hi]
  exact CacheInv.of_slots (by simp [hs]) (by simp [hs]) (by simp [hs]) (by simp [hs]) (by simp)

/-- A write to a cell that no slot maps leaves the invariants as they are (R69). -/
theorem CacheInv.write_unmapped {n : Nat} {m : Memory} {c : Cache} (h : CacheInv n m c) {a : Nat} (v : Word)
    (ha : ∀ i e, c.slotAt i = some e → e.addr ≠ a) : CacheInv n (Memory.write m a v) c :=
  .of_slots (fun _ _ _ _ => h.slot_unique) (fun _ _ => h.slot_lt)
    (fun i e he => by rw [Memory.read_write_other m v (ha i e he)]; exact h.slot_val he) h.mem_lru h.lruNodup

/-! ### Lookup -/

theorem lookupFrom_some {a n i : Nat} {l : List (Option Slot)} {e : Slot} (h : lookupFrom a n l = some (i, e)) :
    n ≤ i ∧ l[i - n]? = some (some e) ∧ e.addr = a := by
  induction l generalizing n with
  | nil => simp [lookupFrom] at h
  | cons o l ih =>
    have step : lookupFrom a (n + 1) l = some (i, e) → n ≤ i ∧ (o :: l)[i - n]? = some (some e) ∧ e.addr = a := by
      intro h
      obtain ⟨h1, h2, h3⟩ := ih h
      refine ⟨by omega, ?_, h3⟩
      rw [show i - n = (i - (n + 1)) + 1 by omega, List.getElem?_cons_succ]
      exact h2
    cases o with
    | none => exact step (by simpa [lookupFrom] using h)
    | some f =>
      by_cases hf : f.addr = a
      · simp only [lookupFrom, hf, if_true, Option.some.injEq, Prod.mk.injEq] at h
        obtain ⟨rfl, rfl⟩ := h
        simp [hf]
      · exact step (by simpa [lookupFrom, hf] using h)

theorem lookupFrom_none {a n : Nat} {l : List (Option Slot)} (h : lookupFrom a n l = none) :
    ∀ e, some e ∈ l → e.addr ≠ a := by
  induction l generalizing n with
  | nil => simp
  | cons o l ih =>
    cases o with
    | none => simpa using ih (by simpa [lookupFrom] using h)
    | some f =>
      by_cases hf : f.addr = a
      · simp [lookupFrom, hf] at h
      · have := ih (n := n + 1) (by simpa [lookupFrom, hf] using h)
        simp only [List.mem_cons, Option.some.injEq]
        rintro e (rfl | he)
        · exact hf
        · exact this e he

/-- A hit: a valid slot holds the address (R60). -/
theorem Cache.lookup_some {c : Cache} {a i : Nat} {e : Slot} (h : c.lookup a = some (i, e)) :
    c.slotAt i = some e ∧ e.addr = a := by
  obtain ⟨-, h2, h3⟩ := lookupFrom_some h
  exact ⟨Cache.slotAt_eq_some.2 (by simpa using h2), h3⟩

/-- A miss: no valid slot holds the address (R60). -/
theorem Cache.lookup_none {c : Cache} {a : Nat} (h : c.lookup a = none) :
    ∀ i e, c.slotAt i = some e → e.addr ≠ a := fun _ e he =>
  lookupFrom_none h e (List.mem_of_getElem? (Cache.slotAt_eq_some.1 he))

/-! ### The recency sequence -/

/-- The pair that slot `i` gives to the sequence of R70. -/
def Cache.pairAt (c : Cache) (i : Nat) : Option (Nat × Word) := (c.slotAt i).map fun e => (e.addr, e.val)

theorem Cache.queue_eq (c : Cache) : c.queue = c.lru.filterMap c.pairAt := rfl

/-- A list of slot numbers, all valid, gives as many pairs. -/
theorem Cache.filterMap_length {c : Cache} {l : List Nat} (h : ∀ i ∈ l, (c.slotAt i).isSome) :
    (l.filterMap c.pairAt).length = l.length := by
  induction l with
  | nil => rfl
  | cons i l ih =>
    obtain ⟨e, he⟩ := Option.isSome_iff_exists.1 (h i List.mem_cons_self)
    have := ih fun j hj => h j (List.mem_cons_of_mem _ hj)
    simp [Cache.pairAt, he] at this ⊢
    exact this

theorem CacheInv.queue_length {n : Nat} {m : Memory} {c : Cache} (h : CacheInv n m c) :
    c.queue.length = c.lru.length :=
  Cache.filterMap_length h.lruValid

/-- Taking the one slot of address `a` out of the numbers takes its pair out of the pairs. -/
theorem Cache.filterMap_filter {c : Cache} {i a : Nat} {l : List Nat}
    (h : ∀ j ∈ l, ∀ f, c.slotAt j = some f → (f.addr = a ↔ j = i)) :
    (l.filter (· != i)).filterMap c.pairAt = (l.filterMap c.pairAt).filter fun p => decide (p.1 ≠ a) := by
  induction l with
  | nil => rfl
  | cons j l ih =>
    have ih := ih fun k hk => h k (List.mem_cons_of_mem _ hk)
    have hj := h j List.mem_cons_self
    have hp : c.pairAt j = (c.slotAt j).map fun e => (e.addr, e.val) := rfl
    rcases hs : c.slotAt j with _ | f
    · rw [hs, Option.map_none] at hp
      rw [List.filterMap_cons, hp, ← ih, List.filter_cons]
      split
      · rw [List.filterMap_cons, hp]
      · rfl
    · rw [hs, Option.map_some] at hp
      by_cases hji : j = i
      · have ha : f.addr = a := (hj f hs).2 hji
        rw [List.filter_cons_of_neg (by simp [hji]), List.filterMap_cons, hp]
        simpa [ha] using ih
      · have ha : f.addr ≠ a := fun h => hji ((hj f hs).1 h)
        rw [List.filter_cons_of_pos (by simp [hji]), List.filterMap_cons, List.filterMap_cons, hp]
        simpa [ha] using ih

/-- No slot maps `a`: no pair of the sequence has it. -/
theorem Cache.filter_queue_unmapped {c : Cache} {a : Nat} (h : ∀ i e, c.slotAt i = some e → e.addr ≠ a) :
    (c.queue.filter fun p => decide (p.1 ≠ a)) = c.queue := by
  refine List.filter_eq_self.2 fun p hp => ?_
  obtain ⟨i, -, hi⟩ := List.mem_filterMap.1 hp
  obtain ⟨e, he, rfl⟩ := Option.map_eq_some_iff.1 hi
  simpa using h i e he

/-- Setting the slot of a hit to a new value and touching it: the invariants and the sequence. With the
value unchanged this is a load hit (R64), with `v` the value just stored it is a store hit (R65). -/
theorem CacheInv.hit {n : Nat} {m m' : Memory} {c : Cache} (h : CacheInv n m c) {i : Nat} {e : Slot}
    (hi : c.slotAt i = some e) (v : Word) (hv : v = Memory.read m' e.addr)
    (hm : ∀ b, b ≠ e.addr → Memory.read m' b = Memory.read m b) :
    CacheInv n m' ((c.fill i e.addr v).touch i) ∧
      ((c.fill i e.addr v).touch i).queue = afterAccess c.slots.length e.addr v c.queue := by
  have hlt := Cache.slotAt_lt hi
  have hs : ∀ j, (c.fill i e.addr v).slotAt j = if i = j then some ⟨e.addr, v⟩ else c.slotAt j := fun j => by
    rw [Cache.fill_slotAt]; simp [hlt]
  have hsome : ∀ j, ((c.fill i e.addr v).slotAt j).isSome = (c.slotAt j).isSome := fun j => by
    rw [hs]
    by_cases hj : i = j
    · subst hj; simp [hi]
    · simp [hj]
  have haddr : ∀ j f, (c.fill i e.addr v).slotAt j = some f → ∃ g, c.slotAt j = some g ∧ g.addr = f.addr := by
    intro j f hf
    rw [hs] at hf
    by_cases hj : i = j
    · subst hj; simp at hf; exact ⟨e, hi, by simp [← hf]⟩
    · simp [hj] at hf; exact ⟨f, hf, rfl⟩
  have hmem : i ∈ c.lru := (h.mem_lru i).2 (by simp [hi])
  constructor
  · refine .of_slots ?_ ?_ ?_ ?_ ?_
    · intro j k f g hj hk hfg
      obtain ⟨f', hf', e1⟩ := haddr j f hj
      obtain ⟨g', hg', e2⟩ := haddr k g hk
      exact h.slot_unique hf' hg' (by rw [e1, e2, hfg])
    · intro j f hj
      obtain ⟨f', hf', e1⟩ := haddr j f hj
      exact e1 ▸ h.slot_lt hf'
    · intro j f hj
      rw [Cache.touch_slotAt, hs] at hj
      by_cases hij : i = j
      · simp [hij] at hj; subst hj; exact hv
      · simp only [hij, if_false] at hj
        have : f.addr ≠ e.addr := fun ha => hij (h.slot_unique hi hj ha.symm)
        rw [hm _ this]; exact h.slot_val hj
    · intro j
      rw [Cache.touch_slotAt, hsome, ← h.mem_lru]
      by_cases hij : j = i
      · subst hij; simp [hmem]
      · simp [hij, List.mem_erase_of_ne hij]
    · simpa using ⟨h.lruNodup.not_mem_erase, h.lruNodup.erase i⟩
  · have herase : c.lru.erase i = c.lru.filter (· != i) := h.lruNodup.erase_eq_filter i
    have hq : ((c.fill i e.addr v).touch i).queue =
        (e.addr, v) :: c.queue.filter fun p => decide (p.1 ≠ e.addr) := by
      rw [Cache.queue_eq, Cache.touch_lru, List.filterMap_cons]
      have hp : ((c.fill i e.addr v).touch i).pairAt i = some (e.addr, v) := by
        simp [Cache.pairAt, hs]
      rw [hp]
      simp only [Cache.fill_lru, List.cons.injEq, true_and]
      rw [herase, Cache.queue_eq, ← Cache.filterMap_filter (i := i)
        fun j hj f hf => ⟨fun ha => h.slot_unique hf hi ha, fun hj => by subst hj; simp_all⟩]
      refine List.filterMap_congr fun j hj => ?_
      have : i ≠ j := fun hij => by simp [hij] at hj
      simp [Cache.pairAt, hs, this]
    have hlen : ((c.fill i e.addr v).touch i).queue.length ≤ c.slots.length := by
      have h1 : ((c.fill i e.addr v).touch i).queue.length = (i :: c.lru.erase i).length :=
        Cache.filterMap_length fun j hj => by
          rw [Cache.touch_slotAt, hsome, ← h.mem_lru]
          rcases List.mem_cons.1 hj with rfl | hj
          · exact hmem
          · exact List.mem_of_mem_erase hj
      rw [h1, List.length_cons, List.length_erase_of_mem hmem]
      have := h.lruLength.2
      have := List.length_pos_of_mem hmem
      omega
    rw [afterAccess, ← hq, List.take_of_length_le hlen]

/-! ### Taking a slot and installing a mapping -/

/-- All that `take_slot` can do on a cache that meets the invariants (R62): it gives an invalid slot that is
not in the recency order, keeps every other mapping, and drops the last pair of the sequence when the cache
is full. -/
theorem CacheInv.takeSlot {n : Nat} {m : Memory} {c : Cache} (h : CacheInv n m c) (hC : 0 < c.slots.length) :
    ∃ i c', c.takeSlot = some (i, c') ∧ i < c'.slots.length ∧ c'.slotAt i = none ∧ CacheInv n m c' ∧
      c'.slots.length = c.slots.length ∧ c'.hits = c.hits ∧ c'.misses = c.misses ∧
      (∀ j e, c'.slotAt j = some e → c.slotAt j = some e) ∧
      c'.queue = c.queue.take (c.slots.length - 1) := by
  have hql := h.queue_length
  rcases hf : c.slots.findIdx? Option.isNone with _ | i
  · -- all slots valid: the last of `lru` is evicted
    have hall : ∀ o ∈ c.slots, Option.isSome o := fun o ho => by
      have := List.findIdx?_eq_none_iff.1 hf o ho
      cases o <;> simp_all
    have hlen : c.lru.length = c.slots.length := by
      rw [h.lruLength.1]; exact List.countP_eq_length.2 hall
    have hne : c.lru ≠ [] := fun e => by simp [e] at hlen; omega
    obtain ⟨l, i, hl⟩ := List.eq_nil_or_concat c.lru |>.resolve_left hne
    rw [List.concat_eq_append] at hl
    have hmem : i ∈ c.lru := by simp [hl]
    obtain ⟨e, he⟩ := Option.isSome_iff_exists.1 (h.lruValid i hmem)
    have hlt := Cache.slotAt_lt he
    have hnd := h.lruNodup
    rw [hl] at hnd
    have hil : i ∉ l := fun hi => by
      have := (List.nodup_append.1 hnd).2.2 i hi i (by simp); exact this rfl
    have hs : ∀ j, (c.evict i).slotAt j = if i = j then none else c.slotAt j := fun j => by
      rw [Cache.evict_slotAt]; simp [hlt]
    have hsub : ∀ j f, (c.evict i).slotAt j = some f → c.slotAt j = some f := fun j f hj => by
      rw [hs] at hj; by_cases hij : i = j <;> simp_all
    refine ⟨i, c.evict i, by simp [Cache.takeSlot, hf, hl, hlt], by simpa using hlt, by simp [hs], ?_, by simp,
      rfl, rfl, hsub, ?_⟩
    · refine .of_slots (fun j k f g hj hk => h.slot_unique (hsub j f hj) (hsub k g hk))
        (fun j f hj => h.slot_lt (hsub j f hj)) (fun j f hj => h.slot_val (hsub j f hj)) (fun j => ?_) ?_
      · rw [hs, Cache.evict_lru, hl, List.dropLast_concat]
        by_cases hij : i = j
        · subst hij; simp [hil]
        · simp only [hij, if_false]
          rw [← h.mem_lru, hl]; simp [Ne.symm hij]
      · rw [Cache.evict_lru, hl, List.dropLast_concat]
        exact (List.nodup_append.1 hnd).1
    · have hll : (l.filterMap c.pairAt).length = l.length :=
        Cache.filterMap_length fun j hj => h.lruValid j (by simp [hl, hj])
      have hl1 : l.length = c.slots.length - 1 := by rw [← hlen, hl]; simp
      have : (c.evict i).queue = l.filterMap c.pairAt := by
        rw [Cache.queue_eq, Cache.evict_lru, hl, List.dropLast_concat]
        refine List.filterMap_congr fun j hj => ?_
        have : i ≠ j := fun hij => hil (hij ▸ hj)
        simp [Cache.pairAt, hs, this]
      rw [this, Cache.queue_eq, hl, List.filterMap_append, List.take_left' (by rw [hll, hl1])]
  · -- some slot invalid: the lowest-numbered one
    obtain ⟨hlt, hnone, -⟩ := List.findIdx?_eq_some_iff_getElem.1 hf
    have hi : c.slotAt i = none := by
      simp only [Cache.slotAt, List.getElem?_eq_getElem hlt]
      simpa using hnone
    have hcount : c.validCount < c.slots.length := by
      rcases Nat.lt_or_ge c.validCount c.slots.length with h | h
      · exact h
      · have := List.countP_eq_length.1 (Nat.le_antisymm List.countP_le_length h) _ (List.getElem_mem hlt)
        simp [Option.isNone_iff_eq_none.1 hnone] at this
    refine ⟨i, c, by simp [Cache.takeSlot, hf], hlt, hi, h, rfl, rfl, rfl, fun _ _ => id, ?_⟩
    rw [List.take_of_length_le]
    rw [hql, h.lruLength.1]; omega

/-- A miss installs: all that `install` can do on a cache that meets the invariants (R63, R66). -/
theorem CacheInv.install {n : Nat} {m : Memory} {c : Cache} (h : CacheInv n m c) {a : Nat} {v : Word}
    (ha : a < n) (hv : v = Memory.read m a) (hu : ∀ i e, c.slotAt i = some e → e.addr ≠ a) :
    ∃ c', c.install a v = some c' ∧ CacheInv n m c' ∧ c'.slots.length = c.slots.length ∧ c'.hits = c.hits ∧
      c'.misses = c.misses ∧ c'.queue = afterAccess c.slots.length a v c.queue := by
  by_cases hC : c.slots.length = 0
  · refine ⟨c, by simp [Cache.install, hC], h, rfl, rfl, rfl, ?_⟩
    have : c.queue.length = 0 := by rw [h.queue_length]; have := h.lruLength.2; omega
    simp [afterAccess, hC, List.length_eq_zero_iff.1 this]
  · obtain ⟨i, c', ht, hlt, hnone, h', hl, hh, hm, hsub, hq⟩ := h.takeSlot (Nat.pos_of_ne_zero hC)
    have hs : ∀ j, ((c'.fill i a v).pushFront i).slotAt j = if i = j then some ⟨a, v⟩ else c'.slotAt j :=
      fun j => by rw [Cache.pushFront_slotAt, Cache.fill_slotAt]; simp [hlt]
    have hil : i ∉ c'.lru := fun hi => by simpa [hnone] using (h'.mem_lru i).1 hi
    refine ⟨(c'.fill i a v).pushFront i, by simp [Cache.install, hC, ht], ?_, by simp [hl], by simp [hh],
      by simp [hm], ?_⟩
    · refine .of_slots ?_ ?_ ?_ ?_ ?_
      · intro j k f g hj hk hfg
        rw [hs] at hj hk
        by_cases hij : i = j <;> by_cases hik : i = k
        · exact hij.symm.trans hik
        · rw [if_pos hij, Option.some.injEq] at hj
          rw [if_neg hik] at hk
          exact absurd (by rw [← hfg, ← hj]) (hu k g (hsub k g hk))
        · rw [if_neg hij] at hj
          rw [if_pos hik, Option.some.injEq] at hk
          exact absurd (by rw [hfg, ← hk]) (hu j f (hsub j f hj))
        · rw [if_neg hij] at hj
          rw [if_neg hik] at hk
          exact h'.slot_unique hj hk hfg
      · intro j f hj
        rw [hs] at hj
        by_cases hij : i = j
        · simp [hij] at hj; subst hj; exact ha
        · simp only [hij, if_false] at hj; exact h'.slot_lt hj
      · intro j f hj
        rw [hs] at hj
        by_cases hij : i = j
        · simp [hij] at hj; subst hj; exact hv
        · simp only [hij, if_false] at hj; exact h'.slot_val hj
      · intro j
        rw [hs]
        by_cases hij : i = j
        · simp [hij]
        · simp [hij, Ne.symm hij, h'.mem_lru]
      · simpa using ⟨hil, h'.lruNodup⟩
    · have : ((c'.fill i a v).pushFront i).queue = (a, v) :: c'.queue := by
        rw [Cache.queue_eq, Cache.pushFront_lru, List.filterMap_cons]
        have hp : ((c'.fill i a v).pushFront i).pairAt i = some (a, v) := by simp [Cache.pairAt, hs]
        rw [hp]
        simp only [Cache.fill_lru, List.cons.injEq, true_and]
        refine List.filterMap_congr fun j hj => ?_
        have : i ≠ j := fun hij => hil (hij ▸ hj)
        simp [Cache.pairAt, hs, this]
      rw [this, hq, afterAccess, Cache.filter_queue_unmapped hu]
      obtain ⟨k, hk⟩ : ∃ k, c.slots.length = k + 1 := ⟨c.slots.length - 1, by omega⟩
      simp [hk]

end Sys2Proof.Machine
end

