-- ==== Sys2Proof/Laws/Encoding.lean ====
section
/-! SUPPORT. Fields of the four formats, and that a word is the sum of its fields (30_encoding.md R92). -/

namespace Sys2Proof

theorem field_eq (w : InstrWord) (lo len : Nat) : field w lo len = w.toNat / 2 ^ lo % 2 ^ len := by
  simp [field, Nat.shiftRight_eq_div_pow]

theorem field_lt (w : InstrWord) (lo len : Nat) : field w lo len < 2 ^ len := by
  rw [field_eq]; exact Nat.mod_lt _ (Nat.two_pow_pos len)

/-- Two words are equal when their numbers are. -/
theorem toNat_append_eq {m n : Nat} (x : BitVec m) (y : BitVec n) :
    (x ++ y).toNat = x.toNat * 2 ^ n + y.toNat := by
  rw [BitVec.toNat_append, ← Nat.shiftLeft_add_eq_or_of_lt y.isLt, Nat.shiftLeft_eq]

theorem formatR_toNat (op : BitVec 8) (d s1 s2 : Nat) :
    (formatR op d s1 s2).toNat = op.toNat * 16777216 + d % 256 * 65536 + s1 % 256 * 256 + s2 % 256 := by
  have : (formatR op d s1 s2).toNat =
      ((op.toNat * 2 ^ 8 + d % 2 ^ 8) * 2 ^ 8 + s1 % 2 ^ 8) * 2 ^ 8 + s2 % 2 ^ 8 := by
    simp only [formatR, toNat_append_eq, BitVec.toNat_ofNat]
  rw [this]
  simp only [Nat.reducePow]
  ring_nf

theorem formatM_toNat (op : BitVec 8) (r a : Nat) :
    (formatM op r a).toNat = op.toNat * 16777216 + r % 256 * 65536 + a % 65536 := by
  have : (formatM op r a).toNat = (op.toNat * 2 ^ 8 + r % 2 ^ 8) * 2 ^ 16 + a % 2 ^ 16 := by
    simp only [formatM, toNat_append_eq, BitVec.toNat_ofNat]
  rw [this]
  simp only [Nat.reducePow]
  ring_nf

theorem formatJ_toNat (op : BitVec 8) (t : Nat) :
    (formatJ op t).toNat = op.toNat * 16777216 + t % 16777216 := by
  have : (formatJ op t).toNat = op.toNat * 2 ^ 24 + t % 2 ^ 24 := by
    simp only [formatJ, toNat_append_eq, BitVec.toNat_ofNat]
  rw [this]
  simp only [Nat.reducePow]

theorem formatZ_toNat (op : BitVec 8) : (formatZ op).toNat = op.toNat * 16777216 := by
  have : (formatZ op).toNat = op.toNat * 2 ^ 24 + (0#24).toNat := by
    simp only [formatZ, toNat_append_eq]
  simpa using this

/-- A word as the sum of an opcode byte and 24 low bits. -/
theorem word_split (w : InstrWord) : w.toNat = field w 24 8 * 16777216 + field w 0 24 := by
  have := w.isLt
  rw [field_eq, field_eq]; omega

/-- The 24 low bits as format R reads them. -/
theorem low_splitR (w : InstrWord) :
    field w 0 24 = field w 16 8 * 65536 + field w 8 8 * 256 + field w 0 8 := by
  rw [field_eq, field_eq, field_eq, field_eq]; omega

/-- The 24 low bits as format M reads them. -/
theorem low_splitM (w : InstrWord) : field w 0 24 = field w 16 8 * 65536 + field w 0 16 := by
  rw [field_eq, field_eq, field_eq]; omega

/-- All that the decoder can answer, with the opcode byte it answers it on (R98). -/
theorem decode_cases (w : InstrWord) :
    (field w 24 8 = 1 ∧ decode w = .ok (.add (field w 16 8) (field w 8 8) (field w 0 8))) ∨
    (field w 24 8 = 2 ∧ decode w = .ok (.sub (field w 16 8) (field w 8 8) (field w 0 8))) ∨
    (field w 24 8 = 3 ∧ decode w = .ok (.load (field w 16 8) (field w 0 16))) ∨
    (field w 24 8 = 4 ∧ decode w = .ok (.store (field w 0 16) (field w 16 8))) ∨
    (field w 24 8 = 5 ∧ decode w = .ok (.jump (field w 0 24))) ∨
    (field w 24 8 = 6 ∧ field w 0 24 = 0 ∧ decode w = .ok .halt) ∨
    (field w 24 8 = 6 ∧ field w 0 24 ≠ 0 ∧ decode w = .error .haltLowBitsSet) ∨
    ((field w 24 8 = 0 ∨ 7 ≤ field w 24 8) ∧ decode w = .error .unassignedOpcode) := by
  unfold decode
  split
  case h_6 h => by_cases hz : field w 0 24 = 0 <;> simp [h, hz]
  case h_7 h1 h2 h3 h4 h5 h6 =>
    have : field w 24 8 = 0 ∨ 7 ≤ field w 24 8 := by
      have h1 : field w 24 8 ≠ 1 := h1
      have h2 : field w 24 8 ≠ 2 := h2
      have h3 : field w 24 8 ≠ 3 := h3
      have h4 : field w 24 8 ≠ 4 := h4
      have h5 : field w 24 8 ≠ 5 := h5
      have h6 : field w 24 8 ≠ 6 := h6
      omega
    simp [this]
  all_goals simp [*]

/-! ### What `WellFormed` says of each instruction -/

theorem wellFormed_add {d s1 s2 : Nat} : WellFormed (.add d s1 s2) ↔ d ≤ 255 ∧ s1 ≤ 255 ∧ s2 ≤ 255 := by
  simp [WellFormed, wellFormed, and_assoc]

theorem wellFormed_sub {d s1 s2 : Nat} : WellFormed (.sub d s1 s2) ↔ d ≤ 255 ∧ s1 ≤ 255 ∧ s2 ≤ 255 := by
  simp [WellFormed, wellFormed, and_assoc]

theorem wellFormed_load {d a : Nat} : WellFormed (.load d a) ↔ d ≤ 255 ∧ a ≤ 65535 := by
  simp [WellFormed, wellFormed]

theorem wellFormed_store {a s : Nat} : WellFormed (.store a s) ↔ s ≤ 255 ∧ a ≤ 65535 := by
  simp [WellFormed, wellFormed]

theorem wellFormed_jump {t : Nat} : WellFormed (.jump t) ↔ t ≤ 16777215 := by
  simp [WellFormed, wellFormed]

theorem wellFormed_halt : WellFormed .halt := rfl

theorem encode_of_wellFormed {i : Instr} (h : WellFormed i) : encode i = some (encodeWord i) := by
  simp only [encode, if_pos h]

theorem encode_eq_some {i : Instr} {w : InstrWord} (h : encode i = some w) : WellFormed i ∧ encodeWord i = w := by
  unfold encode at h
  split at h
  · exact ⟨‹_›, by simpa using h⟩
  · simp at h

end Sys2Proof
end

