-- ==== Sys2Proof/Laws/Exec.lean ====
section
/-! SUPPORT. What each shared operation, each meaning and the step can do, said once. -/

namespace Sys2Proof.Machine

/-! ### Lengths: the number of slots never changes (R33) -/

theorem Cache.takeSlot_length {c c' : Cache} {i : Nat} (h : c.takeSlot = some (i, c')) :
    c'.slots.length = c.slots.length := by
  unfold Cache.takeSlot at h
  split at h
  · simp at h; simp [← h.2]
  · split at h
    · split at h
      · simp at h; simp [← h.2]
      · simp at h
    · simp at h

theorem Cache.install_length {c c' : Cache} {a : Nat} {v : Word} (h : c.install a v = some c') :
    c'.slots.length = c.slots.length := by
  unfold Cache.install at h
  split at h
  · simp at h; simp [← h]
  · split at h
    · rename_i i d hd
      simp at h
      simp [← h, Cache.takeSlot_length hd]
    · simp at h

/-! ### Cache operations in any state -/

/-- Frame of `CacheLoad`: it changes the cache state only, and not the number of slots. -/
theorem cacheLoad_next {a : Nat} {s : State} {r : Word × State} (h : cacheLoad a s = .next r) :
    ∃ c, r.2 = s.setCache c ∧ c.slots.length = s.cache.slots.length := by
  unfold cacheLoad at h
  split at h
  · simp at h; subst h; exact ⟨_, rfl, rfl⟩
  · obtain ⟨v, -, h⟩ := andThen_eq_next.1 h
    obtain ⟨s', h1, h2⟩ := andThen_eq_next.1 h
    simp at h2; subst h2
    unfold cacheMiss at h1
    split at h1
    · rename_i c hc
      simp at h1; subst h1
      exact ⟨_, rfl, by simp [Cache.install_length hc]⟩
    · simp at h1

/-- Frame of `CacheStore`: it writes cell `a`, which exists, and changes the cache state. -/
theorem cacheStore_next {a : Nat} {v : Word} {s t : State} (h : cacheStore a v s = .next t) :
    a < s.memLen ∧ ∃ c, t = (s.setMem (Memory.write s.mem a v)).setCache c ∧
      c.slots.length = s.cache.slots.length := by
  obtain ⟨s', h1, h2⟩ := andThen_eq_next.1 h
  rcases memWrite_eq a v s with ⟨ha, hw⟩ | ⟨-, hw⟩ <;> rw [hw] at h1 <;> simp at h1
  subst h1
  refine ⟨ha, ?_⟩
  split at h2
  · simp at h2; subst h2; exact ⟨_, rfl, by simp⟩
  · unfold cacheMiss at h2
    split at h2
    · rename_i c hc
      simp at h2; subst h2
      exact ⟨_, rfl, by simpa using Cache.install_length hc⟩
    · simp at h2

/-! ### Cache operations under the invariants -/

/-- `CacheLoad` of an address in range returns the cell's value, on a hit as on a miss (R64, R69), moves the
recency sequence by the law of R70, and counts (R73). -/
theorem cacheLoad_ok {s : State} {a : Nat} (h : CacheInv s.memLen s.mem s.cache) (ha : a < s.memLen) :
    ∃ c, cacheLoad a s = .next (s.cell a, s.setCache c) ∧ CacheInv s.memLen s.mem c ∧
      c.slots.length = s.cache.slots.length ∧
      c.queue = afterAccess s.cache.slots.length a (s.cell a) s.cache.queue ∧
      c.hits = s.cache.hits + (if (s.cache.lookup a).isSome then 1 else 0) ∧
      c.misses = s.cache.misses + (if (s.cache.lookup a).isSome then 0 else 1) := by
  rcases hl : s.cache.lookup a with _ | ⟨i, e⟩
  · obtain ⟨c, hc, hinv, hlen, hh, hm, hq⟩ := h.install ha (v := s.cell a) rfl (Cache.lookup_none hl)
    refine ⟨c.countMiss, ?_, hinv.congr rfl rfl, hlen, hq, by simp [hh], by simp [hm]⟩
    simp [cacheLoad, hl, memRead, ha, cacheMiss, hc]
  · obtain ⟨hi, rfl⟩ := Cache.lookup_some hl
    have hv : e.val = s.cell e.addr := h.slot_val hi
    have hfill : s.cache.fill i e.addr e.val = s.cache := by
      have : s.cache.slots.set i (some ⟨e.addr, e.val⟩) = s.cache.slots := by
        have hg := Cache.slotAt_eq_some.1 hi
        obtain ⟨hlt, hg⟩ := List.getElem?_eq_some_iff.1 hg
        rw [show (⟨e.addr, e.val⟩ : Slot) = e from rfl, ← hg, List.set_getElem_self]
      simp [Cache.fill, this]
    obtain ⟨h1, h2⟩ := h.hit hi e.val hv fun _ _ => rfl
    rw [hfill] at h1 h2
    refine ⟨(s.cache.touch i).countHit, ?_, h1.congr rfl rfl, rfl, ?_, by simp, by simp⟩
    · simp [cacheLoad, hl, hv]
    · rw [Cache.countHit_queue, h2, hv]

/-- An address out of range is never cached, so its load raises `OutOfBounds` (R64, R124). -/
theorem cacheLoad_outOfBounds {s : State} {a : Nat} (h : CacheInv s.memLen s.mem s.cache)
    (ha : s.memLen ≤ a) : cacheLoad a s = .fault .outOfBounds := by
  rcases hl : s.cache.lookup a with _ | ⟨i, e⟩
  · simp [cacheLoad, hl, memRead, Nat.not_lt.2 ha]
  · obtain ⟨hi, rfl⟩ := Cache.lookup_some hl
    exact absurd (h.slot_lt hi) (Nat.not_lt.2 ha)

/-- `CacheStore` to an address in range (R65). -/
theorem cacheStore_ok {s : State} {a : Nat} (v : Word) (hm : Memory.wf s.mem)
    (h : CacheInv s.memLen s.mem s.cache) (ha : a < s.memLen) :
    ∃ c, cacheStore a v s = .next ((s.setMem (Memory.write s.mem a v)).setCache c) ∧
      CacheInv s.memLen (Memory.write s.mem a v) c ∧ c.slots.length = s.cache.slots.length ∧
      c.queue = afterAccess s.cache.slots.length a v s.cache.queue ∧
      c.hits = s.cache.hits + (if (s.cache.lookup a).isSome then 1 else 0) ∧
      c.misses = s.cache.misses + (if (s.cache.lookup a).isSome then 0 else 1) := by
  have hread : v = Memory.read (Memory.write s.mem a v) a := (Memory.read_write_same hm a v).symm
  rcases hl : s.cache.lookup a with _ | ⟨i, e⟩
  · have hu := Cache.lookup_none hl
    obtain ⟨c, hc, hinv, hlen, hh, hms, hq⟩ := (h.write_unmapped v hu).install ha hread hu
    refine ⟨c.countMiss, ?_, hinv.congr rfl rfl, hlen, hq, by simp [hh], by simp [hms]⟩
    simp [cacheStore, memWrite, ha, hl, cacheMiss, hc]
  · obtain ⟨hi, rfl⟩ := Cache.lookup_some hl
    obtain ⟨h1, h2⟩ := h.hit hi v hread fun b hb => Memory.read_write_other _ v hb
    refine ⟨((s.cache.fill i e.addr v).touch i).countHit, ?_, h1.congr rfl rfl, by simp, h2, by simp, by simp⟩
    simp [cacheStore, memWrite, ha, hl]

/-- A store out of range raises `OutOfBounds` before anything else (R54, R65), in any state. -/
theorem cacheStore_outOfBounds {s : State} {a : Nat} (v : Word) (ha : s.memLen ≤ a) :
    cacheStore a v s = .fault .outOfBounds := by
  simp [cacheStore, memWrite, Nat.not_lt.2 ha]

/-! ### Operand checks -/

theorem checkRegisters_ok {is : List Nat} (h : ∀ i ∈ is, i < 32) : checkRegisters is = .next () := by
  unfold checkRegisters
  rw [if_pos]
  simpa using h

theorem checkRegisters_bad {is : List Nat} (h : ∃ i ∈ is, 32 ≤ i) :
    checkRegisters is = .fault .invalidRegister := by
  unfold checkRegisters
  rw [if_neg]
  simpa using h

theorem checkRegisters_eq_next {is : List Nat} {u : Unit} :
    checkRegisters is = .next u ↔ ∀ i ∈ is, i < 32 := by
  unfold checkRegisters
  split <;> simp_all

/-! ### Results, at whatever width `Config.XLEN` is -/

/-- The number of values of a word is twice the number of its non-negative ones. -/
theorem two_pow_XLEN : 2 ^ Config.XLEN = 2 * 2 ^ (Config.XLEN - 1) := by decide

theorem addResult_toNat (p q : Word) : (addResult p q).toNat = (p.toNat + q.toNat) % 2 ^ Config.XLEN :=
  BitVec.toNat_add p q

theorem subResult_toNat (p q : Word) :
    ((subResult p q).toNat : Int) = ((p.toNat : Int) - (q.toNat : Int)) % 2 ^ Config.XLEN := by
  have h : (subResult p q).toNat = (2 ^ Config.XLEN - q.toNat + p.toNat) % 2 ^ Config.XLEN := BitVec.toNat_sub p q
  have hq : q.toNat < 2 ^ Config.XLEN := q.isLt
  rw [h, show ((2 : Int) ^ Config.XLEN) = ((2 ^ Config.XLEN : Nat) : Int) from by simp]
  generalize 2 ^ Config.XLEN = m at hq ⊢
  rw [Int.natCast_emod, Int.natCast_add, Int.ofNat_sub (by omega),
    show (m : Int) - q.toNat + p.toNat = p.toNat - q.toNat + m by omega, Int.add_emod_right]

/-! ### Meanings that complete -/

theorem registerOp_ok {op : Word → Word → Word} {d s1 s2 : Nat} {s : State} (hd : d < 32) (h1 : s1 < 32)
    (h2 : s2 < 32) :
    registerOp op d s1 s2 s = .next (s.setReg d (op (s.reg s1) (s.reg s2))).advance := by
  rw [registerOp, checkRegisters_ok (by simp [hd, h1, h2])]; rfl

theorem registerOp_next {op : Word → Word → Word} {d s1 s2 : Nat} {s t : State}
    (h : registerOp op d s1 s2 s = .next t) :
    (d < 32 ∧ s1 < 32 ∧ s2 < 32) ∧ t = (s.setReg d (op (s.reg s1) (s.reg s2))).advance := by
  obtain ⟨u, h1, h2⟩ := andThen_eq_next.1 h
  exact ⟨by simpa using checkRegisters_eq_next.1 h1, by simpa using h2.symm⟩

theorem execLoad_next {d a : Nat} {s t : State} (h : execLoad d a s = .next t) :
    d < 32 ∧ ∃ v c, cacheLoad a s = .next (v, s.setCache c) ∧ c.slots.length = s.cache.slots.length ∧
      t = ((s.setCache c).setReg d v).advance := by
  obtain ⟨u, h1, h2⟩ := andThen_eq_next.1 h
  obtain ⟨r, h2, h3⟩ := andThen_eq_next.1 h2
  obtain ⟨c, hc, hl⟩ := cacheLoad_next h2
  obtain ⟨v, s'⟩ := r
  simp at hc; subst hc
  exact ⟨by simpa using checkRegisters_eq_next.1 h1, v, c, h2, hl, by simpa using h3.symm⟩

theorem execStore_next {a r : Nat} {s t : State} (h : execStore a r s = .next t) :
    r < 32 ∧ a < s.memLen ∧ ∃ c, c.slots.length = s.cache.slots.length ∧
      t = ((s.setMem (Memory.write s.mem a (s.reg r))).setCache c).advance := by
  obtain ⟨u, h1, h2⟩ := andThen_eq_next.1 h
  obtain ⟨s', h2, h3⟩ := andThen_eq_next.1 h2
  obtain ⟨ha, c, rfl, hl⟩ := cacheStore_next h2
  exact ⟨by simpa using checkRegisters_eq_next.1 h1, ha, c, hl, by simpa using h3.symm⟩

theorem execJump_next {t : Nat} {s s' : State} (h : execJump t s = .next s') : t < s.N ∧ s' = s.jumpTo t := by
  obtain ⟨u, h1, h2⟩ := andThen_eq_next.1 h
  unfold checkTarget at h1
  split at h1
  · exact ⟨‹_›, by simpa using h2.symm⟩
  · simp at h1

theorem execHalt_next {s s' : State} (h : execHalt s = .next s') : s' = s.halt := by
  simpa [execHalt] using h.symm

/-! ### Meanings that fault: exactly when, in any state -/

theorem checkRegisters_eq_fault {is : List Nat} {k : Fault} :
    checkRegisters is = .fault k ↔ k = .invalidRegister ∧ ∃ i ∈ is, 32 ≤ i := by
  unfold checkRegisters
  split
  · rename_i h
    simp at h
    simp
    exact fun _ i hi => h i hi
  · rename_i h
    simp at h
    simp [h]
    exact eq_comm

theorem registerOp_fault {op : Word → Word → Word} {d s1 s2 : Nat} {s : State} {k : Fault} :
    registerOp op d s1 s2 s = .fault k ↔ k = .invalidRegister ∧ (32 ≤ d ∨ 32 ≤ s1 ∨ 32 ≤ s2) := by
  rw [registerOp, andThen_eq_fault, checkRegisters_eq_fault]
  simp

/-- `CacheLoad` faults exactly on an address that is not cached and out of range (R64). -/
theorem cacheLoad_fault {a : Nat} {s : State} {k : Fault} :
    cacheLoad a s = .fault k ↔ k = .outOfBounds ∧ s.cache.lookup a = none ∧ s.memLen ≤ a := by
  unfold cacheLoad
  split
  · simp_all
  · rename_i hl
    rcases memRead_eq a s with ⟨ha, hr⟩ | ⟨ha, hr⟩
    · rw [hr, andThen_next, andThen_eq_fault]
      unfold cacheMiss
      split <;> simp [Nat.not_le.2 ha]
    · simp [hr, hl, ha]; exact eq_comm

/-- `CacheStore` faults exactly on an address out of range (R65). -/
theorem cacheStore_fault {a : Nat} {v : Word} {s : State} {k : Fault} :
    cacheStore a v s = .fault k ↔ k = .outOfBounds ∧ s.memLen ≤ a := by
  unfold cacheStore
  rcases memWrite_eq a v s with ⟨ha, hw⟩ | ⟨ha, hw⟩
  · rw [hw, andThen_next]
    split
    · simp [Nat.not_le.2 ha]
    · unfold cacheMiss
      split <;> simp [Nat.not_le.2 ha]
  · simp [hw, ha]; exact eq_comm

theorem execLoad_fault {d a : Nat} {s : State} {k : Fault} :
    execLoad d a s = .fault k ↔ (k = .invalidRegister ∧ 32 ≤ d) ∨
      (k = .outOfBounds ∧ d < 32 ∧ s.cache.lookup a = none ∧ s.memLen ≤ a) := by
  simp only [execLoad, andThen_eq_fault, checkRegisters_eq_fault, checkRegisters_eq_next, cacheLoad_fault]
  simp
  tauto

theorem execStore_fault {a r : Nat} {s : State} {k : Fault} :
    execStore a r s = .fault k ↔ (k = .invalidRegister ∧ 32 ≤ r) ∨
      (k = .outOfBounds ∧ r < 32 ∧ s.memLen ≤ a) := by
  simp only [execStore, andThen_eq_fault, checkRegisters_eq_fault, checkRegisters_eq_next, cacheStore_fault]
  simp
  tauto

theorem execJump_fault {t : Nat} {s : State} {k : Fault} :
    execJump t s = .fault k ↔ k = .invalidJumpTarget ∧ s.N ≤ t := by
  unfold execJump checkTarget
  split
  · simp; omega
  · simp; rw [eq_comm]; simp; omega

/-- `Halt` never faults (R163). -/
theorem execHalt_ok (s : State) : execHalt s = .next s.halt := rfl

/-! ### Fetch and step -/

theorem programAt_idle {p : Program} {k : Nat} : programAt p k = .idle ↔ p.length ≤ k := by
  cases p with
  | instrs is =>
    rw [Program.length, ← List.getElem?_eq_none_iff, programAt]
    cases is[k]? <;> simp
  | words ws =>
    rw [Program.length, ← List.getElem?_eq_none_iff, programAt]
    rcases ws[k]? with _ | w
    · simp
    · rcases hd : decode w with _ | _ <;> simp [hd]

theorem fetch_running {s : State} (h : s.run = .running) : fetch s = programAt s.program s.pc := by
  simp [fetch, h]

/-- No fetch is made exactly when the machine is stopped (R121). -/
theorem fetch_idle {s : State} : fetch s = .idle ↔ s.stopped := by
  cases h : s.run <;> simp [fetch, State.stopped, h, programAt_idle, State.N]

theorem fetch_instr {s : State} {i : Instr} (h : fetch s = .instr i) :
    s.run = .running ∧ s.pc < s.N ∧ programAt s.program s.pc = .instr i := by
  have hn : ¬ s.stopped := fun hs => by rw [fetch_idle.2 hs] at h; simp at h
  simp only [State.stopped, not_or, Nat.not_le] at hn
  have hr : s.run = .running := by cases hr : s.run <;> simp_all
  exact ⟨hr, hn.2, by rw [← fetch_running hr, h]⟩

theorem retire_next {r : Result State} {t : State} (h : retire r = .next t) :
    ∃ s, r = .next s ∧ t = s.setLastFault none := by
  obtain ⟨s, h1, h2⟩ := andThen_eq_next.1 h
  exact ⟨s, h1, by simpa using h2.symm⟩

/-- A step that answers a next state: nothing was fetched and nothing changed, or one instruction
completed. -/
theorem step_next {s t : State} (h : step s = .next t) :
    (s.stopped ∧ t = s) ∨ ∃ i u, fetch s = .instr i ∧ exec i s = .next u ∧ t = u.setLastFault none := by
  unfold step at h
  split at h
  · rename_i hf
    exact .inl ⟨fetch_idle.1 hf, by simpa using h.symm⟩
  · simp at h
  · rename_i i hf
    obtain ⟨u, h1, h2⟩ := retire_next h
    exact .inr ⟨i, u, hf, h1, h2⟩

/-- A step that faults: the word is illegal, or the instruction faults. -/
theorem step_fault {s : State} {k : Fault} (h : step s = .fault k) :
    (∃ why, fetch s = .illegal why ∧ k = .illegalInstruction) ∨ ∃ i, fetch s = .instr i ∧ exec i s = .fault k := by
  unfold step at h
  split at h
  · simp at h
  · rename_i why hf
    exact .inl ⟨why, hf, by simpa using h.symm⟩
  · rename_i i hf
    refine .inr ⟨i, hf, ?_⟩
    rcases andThen_eq_fault.1 h with h | ⟨_, _, h⟩
    · exact h
    · simp at h

theorem step_refused {s : State} {q : Refusal} (h : step s = .refused q) :
    ∃ i, fetch s = .instr i ∧ exec i s = .refused q := by
  unfold step at h
  split at h
  · simp at h
  · simp at h
  · rename_i i hf
    refine ⟨i, hf, ?_⟩
    rcases andThen_eq_refused.1 h with h | ⟨_, _, h⟩
    · exact h
    · simp at h

theorem step_of_instr {s : State} {i : Instr} (h : fetch s = .instr i) : step s = retire (exec i s) := by
  simp [step, h]

theorem step_of_stopped {s : State} (h : s.stopped) : step s = .next s := by
  simp [step, fetch_idle.2 h]

end Sys2Proof.Machine
end

