-- ==== Sys2Proof/Laws/Loop.lean ====
section
/-! SUPPORT. What the driving loop does, said once: when it issues a step, and how its turns add up. -/

namespace Sys2Proof.Machine

/-- The loop goes on exactly while the machine is not stopped and no fault is reported (R128, R131). -/
theorem stopReason_none {s : State} : s.stopReason = none ↔ s.run = .running ∧ s.pc < s.N ∧ s.lastFault = none := by
  unfold State.stopReason
  split
  · simp_all
  · rename_i h
    have hr : s.run = .running := by cases hr : s.run <;> simp_all
    split
    · simp; omega
    · simp [hr]; omega

theorem stopReason_halted {s : State} : s.stopReason = some .halted ↔ s.run = .halted := by
  unfold State.stopReason
  split
  · simp_all
  · split <;> simp_all

theorem stopReason_exhausted {s : State} : s.stopReason = some .exhausted ↔ s.run = .running ∧ s.N ≤ s.pc := by
  unfold State.stopReason
  split
  · simp_all
  · rename_i h
    have hr : s.run = .running := by cases hr : s.run <;> simp_all
    split <;> simp [hr] <;> omega

theorem stopReason_faulted {s : State} {k : Fault} :
    s.stopReason = some (.faulted k) ↔ s.run = .running ∧ s.pc < s.N ∧ s.lastFault = some k := by
  unfold State.stopReason
  split
  · simp_all
  · rename_i h
    have hr : s.run = .running := by cases hr : s.run <;> simp_all
    split
    · simp; omega
    · simp [hr]; omega

/-- A live machine's next turn takes one step and settles its outcome. -/
theorem request_of_live {s : State} (h : s.stopReason = none) : s.request = settle s (step s) := by
  simp [State.request, h]

/-- A run that has ended issues no further step (R128). -/
theorem request_of_ended {s : State} (h : s.stopReason ≠ none) : s.request = s := by
  unfold State.request
  split
  · rfl
  · rename_i hn; exact absurd hn h

theorem runFor_of_ended {s : State} (h : s.stopReason ≠ none) (n : Nat) : s.runFor n = s := by
  induction n with
  | zero => rfl
  | succ n ih => rw [State.runFor, request_of_ended h, ih]

theorem runFor_add (s : State) (m n : Nat) : s.runFor (m + n) = (s.runFor m).runFor n := by
  induction m generalizing s with
  | zero => rw [Nat.zero_add]; rfl
  | succ m ih => rw [Nat.succ_add]; exact ih s.request

theorem runFor_succ (s : State) (n : Nat) : s.runFor (n + 1) = (s.runFor n).request := by
  rw [runFor_add]; rfl

/-- A run that is live after `n` turns was live after every smaller number. -/
theorem live_of_le {s : State} {m n : Nat} (h : m ≤ n) (hl : (s.runFor n).stopReason = none) :
    (s.runFor m).stopReason = none := by
  by_contra hn
  obtain ⟨k, rfl⟩ := Nat.exists_eq_add_of_le h
  rw [runFor_add, runFor_of_ended hn] at hl
  exact hn hl

end Sys2Proof.Machine
end

