-- ==== Sys2Proof/Laws/PerInstr.lean ====
section
/-! SUPPORT. Per-instruction laws: `Encodable`, the encoder is defined exactly on the instructions whose
fields fit, and gives the instruction's own opcode byte (30_encoding.md R97, R102). -/

namespace Sys2Proof.Laws.Encodable

/-- The opcode byte of R97. -/
def opcode : Instr → Nat
  | .add _ _ _ => 0x01
  | .sub _ _ _ => 0x02
  | .load _ _ => 0x03
  | .store _ _ => 0x04
  | .jump _ => 0x05
  | .halt => 0x06

/-- `i` has a word exactly when it is well-formed, and that word carries its opcode in bits 31 to 24. -/
def Statement (i : Instr) : Prop :=
  ((encode i).isSome = true ↔ WellFormed i) ∧ ∀ w, encode i = some w → field w 24 8 = opcode i

theorem of_word {i : Instr} (h : (encodeWord i).toNat / 16777216 % 256 = opcode i) : Statement i := by
  constructor
  · by_cases hw : WellFormed i <;> simp [encode, hw]
  · intro w hw
    unfold encode at hw
    split at hw
    · simp only [Option.some.injEq] at hw
      rw [← hw, field_eq]; exact h
    · simp at hw

theorem add (d s1 s2 : Nat) : Statement (.add d s1 s2) := of_word (by
  simp only [encodeWord, opcode, formatR_toNat, BitVec.toNat_ofNat]; omega)

theorem sub (d s1 s2 : Nat) : Statement (.sub d s1 s2) := of_word (by
  simp only [encodeWord, opcode, formatR_toNat, BitVec.toNat_ofNat]; omega)

theorem load (d a : Nat) : Statement (.load d a) := of_word (by
  simp only [encodeWord, opcode, formatM_toNat, BitVec.toNat_ofNat]; omega)

theorem store (a s : Nat) : Statement (.store a s) := of_word (by
  simp only [encodeWord, opcode, formatM_toNat, BitVec.toNat_ofNat]; omega)

theorem jump (t : Nat) : Statement (.jump t) := of_word (by
  simp only [encodeWord, opcode, formatJ_toNat, BitVec.toNat_ofNat]; omega)

theorem halt : Statement .halt := of_word (by decide)

end Sys2Proof.Laws.Encodable
end

