-- ==== Sys2Proof/Tests/Slice0.lean ====
section
/-! SUPPORT. The model's own tests. Expected results come from spec/95_test_vectors.md and from the encoding
tables of spec/30_encoding.md; each witness shows values that meet the hypotheses of the statement it is
named after. -/

namespace Sys2Proof.Tests

open Sys2Proof Sys2Proof.Machine

/-! ### Helpers -/

/-- The next state, if there is one. -/
def nextOf (r : Result State) : Option State :=
  match r with
  | .next s => some s
  | .fault _ => none
  | .refused _ => none

/-- The fault, if there is one. -/
def faultOf (r : Result State) : Option Fault :=
  match r with
  | .next _ => none
  | .fault k => some k
  | .refused _ => none

/-- The instruction of a word, if it is legal. -/
def decoded (w : InstrWord) : Option Instr :=
  match decode w with
  | .ok i => some i
  | .error _ => none

/-- Reset with the given parameters, then registers 1 and 2 pre-set. -/
def start (memLen capacity : Nat) (p : Program) (v w : Word) : State :=
  ((State.resetWith { memLen := memLen, capacity := capacity, program := p }).setReg 1 v).setReg 2 w

/-- Program P1, as words. -/
def p1 : Program := .words [0x04010000#32, 0x04020001#32, 0x03030000#32, 0x03040002#32]

/-- P1 after its second step: the cache is full. -/
def warm : State := (start 4 2 p1 5 7).runFor 2

/-- A machine with every kind of instruction in its program and an illegal last word. -/
def mixed (pc : Nat) : State :=
  (start 4 2 (.words [0x01030102#32, 0x02030102#32, 0x03030003#32, 0x04010003#32, 0x05000006#32, 0x06000000#32,
    0x03200004#32, 0x00000000#32]) 5 7).jumpTo pc

theorem warm_inv : StateInv warm := by
  refine ⟨by decide, by decide, ⟨?_, ?_, ?_, ?_, ?_, ?_, ?_⟩, by decide, by decide⟩ <;> decide

theorem mixed_inv (pc : Nat) (h : pc ≤ 8) : StateInv (mixed pc) :=
  ⟨⟨.nil, by simp [mixed, start, State.resetWith, State.setReg, State.jumpTo]⟩, by
    intro c hc; exact absurd hc (List.not_mem_nil), CacheInv.empty 4 [] 2 0 0, h, by
    show 8 < 2 ^ 32
    decide⟩

/-! ### WellFormed (R102): each bound, at its last good value and at its first bad one -/

theorem test_wellFormed_bounds : WellFormed (.add 255 255 255) ∧ WellFormed (.sub 255 255 255) ∧
    WellFormed (.load 255 65535) ∧ WellFormed (.store 65535 255) ∧ WellFormed (.jump 16777215) ∧
    WellFormed .halt := by decide

theorem test_illFormed_add : ¬ WellFormed (.add 256 0 0) ∧ ¬ WellFormed (.add 0 256 0) ∧
    ¬ WellFormed (.add 0 0 256) := by decide

theorem test_illFormed_sub : ¬ WellFormed (.sub 256 0 0) ∧ ¬ WellFormed (.sub 0 256 0) ∧
    ¬ WellFormed (.sub 0 0 256) := by decide

theorem test_illFormed_memory : ¬ WellFormed (.load 256 0) ∧ ¬ WellFormed (.load 0 65536) ∧
    ¬ WellFormed (.store 0 256) ∧ ¬ WellFormed (.store 65536 0) := by decide

theorem test_illFormed_jump : ¬ WellFormed (.jump 16777216) := by decide

theorem test_encode_refuses_illFormed : encode (.add 256 0 0) = none ∧ encode (.load 0 65536) = none ∧
    encode (.jump 16777216) = none := by decide

/-! ### Decode: words written out bit by bit from the formats of R92 to R97 (V-E1 to V-E11) -/

theorem test_decode_add : decoded 0b00000001000000110000000100000010#32 = some (.add 3 1 2) := by decide

theorem test_decode_sub : decoded 0b00000010111111110000000011111111#32 = some (.sub 255 0 255) := by decide

theorem test_decode_load : decoded 0b00000011000000111111111111111110#32 = some (.load 3 65534) := by decide

theorem test_decode_store : decoded 0b00000100000000111111111111111110#32 = some (.store 65534 3) := by decide

theorem test_decode_jump : decoded 0b00000101111111110000000000000001#32 = some (.jump 0xFF0001) := by decide

theorem test_decode_halt : decoded 0b00000110000000000000000000000000#32 = some .halt := by decide

/-- V-E7 to V-E10: the words that are no instruction. -/
theorem test_decode_illegal : decoded 0x06000001#32 = none ∧ decoded 0x06800000#32 = none ∧
    decoded 0x00000000#32 = none ∧ decoded 0x07000000#32 = none ∧ decoded 0xFFFFFFFF#32 = none := by decide

/-- The encoder at the largest fields. -/
theorem test_encode_bounds : encode (.add 255 255 255) = some 0x01FFFFFF#32 ∧
    encode (.sub 255 255 255) = some 0x02FFFFFF#32 ∧ encode (.load 255 65535) = some 0x03FFFFFF#32 ∧
    encode (.store 65535 255) = some 0x04FFFFFF#32 ∧ encode (.jump 16777215) = some 0x05FFFFFF#32 := by decide

theorem test_decodeTableWord : decodeTableWord 32 0x01030102 = some (.add 3 1 2) ∧
    decodeTableWord 32 0x06000000 = some .halt ∧ decodeTableWord 32 0x07000000 = none := by decide

/-- After reset with a word placed, the very next step runs it (log 2). -/
theorem test_withFetchWord_runs : (nextOf (step (State.reset.withFetchWord 32 0x06000000))).map (·.run) =
    some .halted := by decide

/-! ### One step each (95_test_vectors.md) -/

/-- V-A2: a signed overflow wraps. -/
theorem test_add_wraps : (nextOf (exec (.add 3 1 2) (start 4 2 p1 0x7FFFFFFF 1))).map
    (fun t => (t.reg 3, t.pc)) = some (0x80000000#32, 1) := by decide

/-- V-A5: the destination is both sources. -/
theorem test_add_same_register : (nextOf (exec (.add 1 1 1) (start 4 2 p1 21 0))).map (·.reg 1) =
    some 42#32 := by decide

/-- V-S8: first source minus second, the destination being the second. -/
theorem test_sub_order : (nextOf (exec (.sub 1 2 1) (start 4 2 p1 5 7))).map (·.reg 1) = some 2#32 := by decide

/-- V-S6: negating the most negative value. -/
theorem test_sub_wraps : (nextOf (exec (.sub 3 0 2) (start 4 2 p1 0 0x80000000))).map (·.reg 3) =
    some 0x80000000#32 := by decide

/-- P1 step 3: a load hit moves slot 0 to the front and reads no Memory. -/
theorem test_load_hit : (nextOf (exec (.load 3 0) warm)).map
    (fun t => (t.reg 3, t.cache.lru, t.cache.hits, t.cache.misses)) = some (5#32, [0, 1], 1#64, 2#64) := by decide

/-- A load miss in a full cache evicts the least recently used slot, which holds address 0. -/
theorem test_load_evicts : (nextOf (exec (.load 4 2) warm)).map
    (fun t => (t.reg 4, t.cache.slots, t.cache.lru)) =
      some (0#32, [some ⟨2, 0#32⟩, some ⟨1, 7#32⟩], [0, 1]) := by decide

/-- V-C3 step 2: a store hit updates its slot in place and writes Memory. -/
theorem test_store_hit : (nextOf (exec (.store 0 2) warm)).map
    (fun t => (t.cell 0, t.cache.slots, t.cache.lru)) =
      some (7#32, [some ⟨0, 7#32⟩, some ⟨1, 7#32⟩], [0, 1]) := by decide

/-- V-M2: a store miss allocates, at the highest legal address. -/
theorem test_store_miss : (nextOf (exec (.store 3 1) (start 4 2 p1 0xAB 0))).map
    (fun t => (t.mem, t.cache.slots, t.cache.misses)) =
      some ([(3, 0xAB#32)], [some ⟨3, 0xAB#32⟩, none], 1#64) := by decide

/-- V-J1, V-J2: `N - 1` is the highest target, `N` is none. -/
theorem test_jump_bounds : (nextOf (exec (.jump 3) warm)).map (·.pc) = some 3 ∧
    faultOf (exec (.jump 4) warm) = some .invalidJumpTarget := by decide

/-- V-J3: `Halt` leaves the pc at its own index. -/
theorem test_halt : (nextOf (exec .halt warm)).map (fun t => (t.run, t.pc)) = some (.halted, 2) := by decide

/-! ### Faults -/

/-- V-M3, V-M4: the first illegal address. -/
theorem test_outOfBounds : faultOf (exec (.load 3 4) warm) = some .outOfBounds ∧
    faultOf (exec (.store 4 1) warm) = some .outOfBounds := by decide

/-- S2: register 32 in each field. -/
theorem test_invalidRegister : faultOf (exec (.add 32 0 0) warm) = some .invalidRegister ∧
    faultOf (exec (.add 1 32 0) warm) = some .invalidRegister ∧
    faultOf (exec (.add 1 0 32) warm) = some .invalidRegister ∧
    faultOf (exec (.sub 32 0 0) warm) = some .invalidRegister ∧
    faultOf (exec (.sub 1 32 0) warm) = some .invalidRegister ∧
    faultOf (exec (.sub 1 0 32) warm) = some .invalidRegister ∧
    faultOf (exec (.load 32 1) warm) = some .invalidRegister ∧
    faultOf (exec (.store 1 32) warm) = some .invalidRegister := by decide

/-- V-M6, V-M7: both operands wrong. -/
theorem test_fault_priority : faultOf (exec (.load 32 4) warm) = some .invalidRegister ∧
    faultOf (exec (.store 9 40) warm) = some .invalidRegister := by decide

/-! ### Memory -/

theorem test_memory_reset : Memory.wf State.reset.mem ∧ State.reset.mem = [] := by decide

/-- Writing 0, which an unlisted cell reads as, takes the entry out. -/
theorem test_memory_write_zero : Memory.write (Memory.write [] 3 5#32) 3 0#32 = [] := by decide

/-! ### Witnesses: values that meet the hypotheses of each statement, at the bounds -/

/-- The bounds of the table's clauses, a word with its instruction, and a binary program whose instructions
name the largest address and the largest target. -/
theorem witness_EncoderIsPartialInverseOfDecoder :
    (255 ≤ 255 ∧ 65535 ≤ 65535 ∧ 16777215 ≤ 16777215) ∧ encode (.add 255 255 255) = some 0x01FFFFFF#32 ∧
    decode 0x01FFFFFF#32 = .ok (.add 255 255 255) ∧
    (∃ (s : State) (ws : List InstrWord), s.program = .words ws ∧ fetch s = .instr (.load 3 65535)) ∧
    (∃ (s : State) (ws : List InstrWord), s.program = .words ws ∧ fetch s = .instr (.jump 16777215)) :=
  ⟨by decide, by decide, rfl, ⟨start 4 2 (.words [0x0303FFFF#32]) 0 0, _, rfl, by decide⟩,
    ⟨start 4 2 (.words [0x05FFFFFF#32]) 0 0, _, rfl, by decide⟩⟩

theorem witness_IllegalWordsFaultWhenExecuted : ∃ (s : State) (ws : List InstrWord) (w : InstrWord) (why : IllegalWord),
    s.run = .running ∧ s.program = .words ws ∧ ws[s.pc]? = some w ∧ decode w = .error why :=
  ⟨mixed 7, _, 0x00000000#32, .unassignedOpcode, rfl, rfl, rfl, rfl⟩

theorem witness_ResetValuesOfAllState : 31 < 32 := by decide

theorem witness_ResetMeetsInvariant : ({ memLen := 4, capacity := 2, program := p1 } : Config.Params).program.length < 2 ^ 32 := by
  decide

theorem witness_StepKeepsInvariant : ∃ s t, StateInv s ∧ step s = .next t :=
  ⟨warm, _, warm_inv, rfl⟩

/-- Both outcomes. -/
theorem witness_StepIsNextOrFault : StateInv warm ∧ (∃ t, step warm = .next t) ∧ StateInv (mixed 7) ∧
    step (mixed 7) = .fault .illegalInstruction :=
  ⟨warm_inv, ⟨_, rfl⟩, mixed_inv 7 (by decide), rfl⟩

theorem witness_StepKeepsParameters : ∃ s t : State, step s = .next t := ⟨warm, _, rfl⟩

/-- A pre-set register, and the end state of V-R2's kind: a run that leaves registers and cells that are not 0. -/
theorem witness_ResetAgainForgetsTheRun : (∃ t, writeRegister State.reset 31 9#32 = .ok t) ∧
    warm.reg 1 ≠ 0#32 ∧ warm.cell 0 ≠ 0#32 := ⟨⟨_, rfl⟩, by decide, by decide⟩

theorem witness_OnlyHaltChangesRunState : fetch (mixed 5) = .instr .halt ∧
    (∃ s t : State, step s = .next t ∧ fetch s ≠ .instr .halt) ∧
    (∃ s t : State, s.run = .halted ∧ step s = .next t) :=
  ⟨rfl, ⟨warm, _, rfl, by decide⟩, ⟨warm.halt, _, rfl, rfl⟩⟩

theorem witness_RegisterZeroIsOrdinary : (31 < 32) ∧ StateInv warm ∧ 3 < warm.memLen :=
  ⟨by decide, warm_inv, by decide⟩

theorem witness_HostRegisterAccessIsBoundsChecked : 32 ≤ 32 ∧ 31 < 32 := by decide

theorem witness_AddWritesWrappedSum : 255 ≤ 255 ∧ 31 < 32 ∧ (32 ≤ 32 ∨ 32 ≤ 0 ∨ 32 ≤ 0) ∧
    (32 ≤ 0 ∨ 32 ≤ 32 ∨ 32 ≤ 0) ∧ (32 ≤ 0 ∨ 32 ≤ 0 ∨ 32 ≤ 32) := by decide

theorem witness_SubWritesWrappedDifference : 255 ≤ 255 ∧ 31 < 32 ∧ (32 ≤ 32 ∨ 32 ≤ 0 ∨ 32 ≤ 0) ∧
    (32 ≤ 0 ∨ 32 ≤ 32 ∨ 32 ≤ 0) ∧ (32 ≤ 0 ∨ 32 ≤ 0 ∨ 32 ≤ 32) := by decide

/-- A sum in range at its largest, one just above and one just below. -/
theorem witness_SignedReadingOfResults_add :
    (∃ t, exec (.add 3 1 2) (start 4 2 p1 0x7FFFFFFE 1) = .next t) ∧
    ((0x7FFFFFFE#32).toInt + (1#32).toInt < 2 ^ 31 ∧ -2 ^ 31 ≤ (0x7FFFFFFE#32).toInt + (1#32).toInt) ∧
    2 ^ 31 ≤ (0x7FFFFFFF#32).toInt + (1#32).toInt ∧ (0x80000000#32).toInt + (0xFFFFFFFF#32).toInt < -2 ^ 31 :=
  ⟨⟨_, rfl⟩, by decide, by decide, by decide⟩

/-- The same for a difference. -/
theorem witness_SignedReadingOfResults_sub :
    (∃ t, exec (.sub 3 1 2) (start 4 2 p1 0x80000001 1) = .next t) ∧
    ((0x80000001#32).toInt - (1#32).toInt < 2 ^ 31 ∧ -2 ^ 31 ≤ (0x80000001#32).toInt - (1#32).toInt) ∧
    2 ^ 31 ≤ (0x7FFFFFFF#32).toInt - (0xFFFFFFFF#32).toInt ∧ (0x80000000#32).toInt - (1#32).toInt < -2 ^ 31 :=
  ⟨⟨_, rfl⟩, by decide, by decide, by decide⟩

/-- A hit at address 1, a miss at address 3, the first register and the first address that fault. -/
theorem witness_LoadReturnsCellValue : 255 ≤ 255 ∧ 65535 ≤ 65535 ∧ StateInv warm ∧ 31 < 32 ∧ 3 < warm.memLen ∧
    (warm.cache.lookup 1).isSome = true ∧ warm.cache.lookup 3 = none ∧ 32 ≤ 32 ∧ warm.memLen ≤ 4 :=
  ⟨by decide, by decide, warm_inv, by decide, by decide, by decide, by decide, by decide, by decide⟩

theorem witness_StoreWritesCellAndCache : 255 ≤ 255 ∧ 65535 ≤ 65535 ∧ StateInv warm ∧ 31 < 32 ∧ 3 < warm.memLen ∧
    (warm.cache.lookup 1).isSome = true ∧ warm.cache.lookup 3 = none ∧ 32 ≤ 32 ∧ warm.memLen ≤ 4 :=
  ⟨by decide, by decide, warm_inv, by decide, by decide, by decide, by decide, by decide, by decide⟩

/-- The store's address is evicted before it is loaded again. -/
theorem witness_StoreThenLoadReturnsStoredValue : ∃ (js : List Instr) (s1 s2 : State), StateInv warm ∧ 31 < 32 ∧
    exec (.store 3 1) warm = .next s1 ∧ (∀ j ∈ js, storesTo 3 j = false) ∧ execAll js s1 = .next s2 ∧
    s2.cache.lookup 3 = none :=
  ⟨[.load 5 0, .store 2 2], _, _, warm_inv, by decide, rfl, by decide, rfl, by decide⟩

theorem witness_MemoryPrimitivesAreBoundsChecked : warm.memLen ≤ 4 ∧ 3 < warm.memLen ∧ Memory.wf warm.mem := by
  decide

theorem witness_CanonicalMemoryIsDeterminedByItsCells : ∃ m n : Memory, Memory.wf m ∧ Memory.wf n ∧
    ∀ a, Memory.read m a = Memory.read n a :=
  ⟨[(3, 5#32)], Memory.write (Memory.write [] 3 1#32) 3 5#32, by decide, by decide, fun _ => rfl⟩

/-- Each case: a hit, an address out of range, and a miss with no slot, with an invalid slot, with none. -/
theorem witness_CacheLoadFollowsItsAlgorithm :
    (CacheInv warm.memLen warm.mem warm.cache ∧ warm.cache.slotAt 1 = some ⟨1, 7#32⟩ ∧ warm.memLen ≤ 4 ∧
      3 < warm.memLen ∧ warm.cache.lookup 3 = none ∧ (∀ j, j < warm.C → (warm.cache.slotAt j).isSome = true) ∧
      warm.cache.lru = [1] ++ [0]) ∧
    (CacheInv (mixed 0).memLen (mixed 0).mem (mixed 0).cache ∧ 0 < (mixed 0).C ∧
      (mixed 0).cache.slotAt 0 = none) ∧
    (start 4 0 p1 5 7).C = 0 ∧ CacheInv (start 4 0 p1 5 7).memLen (start 4 0 p1 5 7).mem (start 4 0 p1 5 7).cache :=
  ⟨⟨warm_inv.cacheInv, by decide, by decide, by decide, by decide, by decide, by decide⟩,
    ⟨(mixed_inv 0 (by decide)).cacheInv, by decide, by decide⟩, by decide, CacheInv.empty 4 [] 0 0 0⟩

/-- The same cases, for the store. -/
theorem witness_CacheStoreFollowsItsAlgorithm :
    (CacheInv warm.memLen warm.mem warm.cache ∧ warm.cache.slotAt 0 = some ⟨0, 5#32⟩ ∧ warm.memLen ≤ 4 ∧
      3 < warm.memLen ∧ warm.cache.lookup 3 = none ∧ (∀ j, j < warm.C → (warm.cache.slotAt j).isSome = true) ∧
      warm.cache.lru = [1] ++ [0]) ∧
    (CacheInv (mixed 0).memLen (mixed 0).mem (mixed 0).cache ∧ 0 < (mixed 0).C ∧
      (mixed 0).cache.slotAt 0 = none) ∧
    (start 4 0 p1 5 7).C = 0 ∧ CacheInv (start 4 0 p1 5 7).memLen (start 4 0 p1 5 7).mem (start 4 0 p1 5 7).cache :=
  ⟨⟨warm_inv.cacheInv, by decide, by decide, by decide, by decide, by decide, by decide⟩,
    ⟨(mixed_inv 0 (by decide)).cacheInv, by decide, by decide⟩, by decide, CacheInv.empty 4 [] 0 0 0⟩

theorem witness_CapacityZeroAlwaysMisses : (start 4 0 p1 5 7).C = 0 ∧ 3 < (start 4 0 p1 5 7).memLen ∧
    (start 4 0 p1 5 7).memLen ≤ 4 := by decide

/-- A load and a store that both evict. -/
theorem witness_EvictionWritesNothingBack : (∃ v t, cacheLoad 2 warm = .next (v, t)) ∧
    ∃ t, cacheStore 2 9#32 warm = .next t := ⟨⟨_, _, rfl⟩, ⟨_, rfl⟩⟩

theorem witness_OnlyAccessesChangeRecency : StateInv warm ∧ (∃ t, exec (.load 3 0) warm = .next t) ∧
    accessAddr (.load 3 0) = some 0 ∧ (∃ t, exec (.add 3 1 2) warm = .next t) ∧ accessAddr (.add 3 1 2) = none ∧
    step (mixed 6) = .fault .invalidRegister :=
  ⟨warm_inv, ⟨_, rfl⟩, rfl, ⟨_, rfl⟩, rfl, rfl⟩

/-- An instruction that is no access, a hit, a miss, and an access with no slots. -/
theorem witness_EachAccessCountsOnce : (∃ t, exec (.add 3 1 2) warm = .next t) ∧ accessAddr (.add 3 1 2) = none ∧
    (∃ t, exec (.load 3 0) warm = .next t) ∧ accessAddr (.load 3 0) = some 0 ∧
    (warm.cache.lookup 0).isSome = true ∧ (∃ t, exec (.store 3 1) warm = .next t) ∧
    accessAddr (.store 3 1) = some 3 ∧ warm.cache.lookup 3 = none ∧
    (∃ t, exec (.load 3 0) (start 4 0 p1 5 7) = .next t) ∧ (start 4 0 p1 5 7).C = 0 :=
  ⟨⟨_, rfl⟩, rfl, ⟨_, rfl⟩, rfl, by decide, ⟨_, rfl⟩, rfl, by decide, ⟨_, rfl⟩, by decide⟩

/-- Three distinct addresses and two slots (V-C2). -/
theorem witness_DistinctAccessesEvictTheFirst : ∃ (is : List Instr) (as : List Nat) (t : State),
    StateInv (mixed 0) ∧ (mixed 0).cache.lru = [] ∧ is.map accessAddr = as.map some ∧ as.Nodup ∧
    execAll is (mixed 0) = .next t ∧ ∃ a bs, as = a :: bs ∧ bs.length = (mixed 0).C :=
  ⟨[.load 1 0, .store 1 1, .load 1 3], [0, 1, 3], _, mixed_inv 0 (by decide), rfl, rfl, by decide, rfl,
    0, [1, 3], rfl, rfl⟩

theorem witness_JumpSetsPcWithinProgram : 16777215 ≤ 16777215 ∧ 3 < warm.N ∧ warm.N ≤ 4 := by decide

theorem witness_HaltStopsForGood : (0x06000001#32).toNat / 2 ^ 24 = 6 ∧ (0x06000001#32).toNat % 2 ^ 24 ≠ 0 := by
  decide

theorem witness_ProgramCounterUpdate : (∃ t, exec (.add 3 1 2) warm = .next t) ∧ (∃ t, exec (.sub 3 1 2) warm = .next t) ∧
    (∃ t, exec (.load 3 0) warm = .next t) ∧ (∃ t, exec (.store 0 1) warm = .next t) ∧
    (∃ t, exec (.jump 3) warm = .next t) ∧ (∃ t, exec .halt warm = .next t) ∧
    step (mixed 6) = .fault .invalidRegister :=
  ⟨⟨_, rfl⟩, ⟨_, rfl⟩, ⟨_, rfl⟩, ⟨_, rfl⟩, ⟨_, rfl⟩, ⟨_, rfl⟩, rfl⟩

theorem witness_FrameOfEveryInstruction : (∃ t, exec (.add 3 1 2) warm = .next t) ∧ (∃ t, exec (.sub 3 1 2) warm = .next t) ∧
    (∃ t, exec (.load 3 2) warm = .next t) ∧ (∃ t, exec (.store 3 1) warm = .next t) ∧
    (∃ t, exec (.jump 0) warm = .next t) ∧ ∃ t, exec .halt warm = .next t :=
  ⟨⟨_, rfl⟩, ⟨_, rfl⟩, ⟨_, rfl⟩, ⟨_, rfl⟩, ⟨_, rfl⟩, ⟨_, rfl⟩⟩

theorem witness_StepRunsTheInstructionAtPc : (∃ (s : State) (ws : List InstrWord) (w : InstrWord), s.run = .running ∧
      s.program = .words ws ∧ ws[s.pc]? = some w ∧ decode w = .ok (.store 3 1)) ∧
    ∃ (s : State) (is : List Instr), s.run = .running ∧ s.program = .instrs is ∧ is[s.pc]? = some (.jump 0) :=
  ⟨⟨mixed 3, _, 0x04010003#32, rfl, rfl, rfl, rfl⟩, ⟨start 4 2 (.instrs [.jump 0]) 5 7, _, rfl, rfl, rfl⟩⟩

theorem witness_PlacedWordRunsNext : 0x05000000 < 2 ^ 32 ∧ decode (BitVec.ofNat 32 0x05000000) = .ok (.jump 0) :=
  ⟨by decide, rfl⟩

theorem witness_StoppedMachineNeverChanges : (warm.halt.run = .halted) ∧ (mixed 8).N ≤ (mixed 8).pc ∧
    (Program.words []).length = 0 := ⟨rfl, by decide, rfl⟩

theorem witness_AbstractAndBinaryLevelsAgree : [0x01030102#32, 0x05000000#32].map decode =
    [Instr.add 3 1 2, .jump 0].map Except.ok := rfl

/-- Two states with caches of different capacity and contents. -/
theorem witness_CacheIsInvisibleToPrograms : StateInv warm ∧ StateInv ((start 4 0 p1 5 7).runFor 2) ∧
    AgreeButCache warm ((start 4 0 p1 5 7).runFor 2) ∧ warm.cache ≠ ((start 4 0 p1 5 7).runFor 2).cache := by
  refine ⟨warm_inv, ⟨by decide, by decide, ⟨?_, ?_, ?_, ?_, ?_, ?_, ?_⟩, by decide, by decide⟩,
    ⟨rfl, rfl, by decide, rfl, rfl, by decide, rfl⟩, by decide⟩ <;> decide

/-- Two states with different registers, Memory contents and caches. -/
theorem witness_ControlFlowIgnoresData : StateInv warm ∧ StateInv ((start 4 0 p1 1 2).runFor 2) ∧
    AgreeOnControl warm ((start 4 0 p1 1 2).runFor 2) ∧ warm.mem ≠ ((start 4 0 p1 1 2).runFor 2).mem := by
  refine ⟨warm_inv, ⟨by decide, by decide, ⟨?_, ?_, ?_, ?_, ?_, ?_, ?_⟩, by decide, by decide⟩,
    ⟨rfl, rfl, rfl, rfl, rfl⟩, by decide⟩ <;> decide

/-- A run that ends and one that does not end within its program's length. -/
theorem witness_RunsEndWithinProgramLengthOrNever : StateInv warm ∧ (warm.runFor warm.N).stopReason ≠ none ∧
    ((start 4 2 (.words [0x05000000#32]) 5 7).runFor 1).stopReason = none := ⟨warm_inv, by decide, by decide⟩

theorem witness_JumpToSelfNeverEnds : ∃ s : State, fetch s = .instr (.jump s.pc) ∧ s.lastFault = none :=
  ⟨start 4 2 (.words [0x05000000#32]) 5 7, rfl, rfl⟩

/-- A run for each reason of stopping. -/
theorem witness_StateAtTheEndOfARun : StateInv (mixed 5) ∧ (mixed 5).run = .running ∧ (mixed 5).lastFault = none ∧
    ((mixed 5).runFor 1).stopReason = some .halted ∧ StateInv (mixed 7) ∧
    ((mixed 7).runFor 1).stopReason = some (.faulted .illegalInstruction) ∧ StateInv warm ∧
    (warm.runFor 2).stopReason = some .exhausted :=
  ⟨mixed_inv 5 (by decide), rfl, rfl, by decide, mixed_inv 7 (by decide), by decide, warm_inv, by decide⟩

/-- Each fault kind occurs, from an instruction or from a word. -/
theorem witness_CausesOfEachFault : StateInv warm ∧ exec (.load 3 4) warm = .fault .outOfBounds ∧
    exec (.store 4 31) warm = .fault .outOfBounds ∧ exec (.sub 1 0 32) warm = .fault .invalidRegister ∧
    exec (.jump 4) warm = .fault .invalidJumpTarget ∧ step (mixed 6) = .fault .invalidRegister ∧
    step (mixed 7) = .fault .illegalInstruction ∧ 32 ≤ 32 :=
  ⟨warm_inv, rfl, rfl, rfl, rfl, rfl, rfl, by decide⟩

theorem witness_RegisterFaultTakesPriority : 32 ≤ 32 ∧ warm.memLen ≤ 4 := by decide

theorem witness_FaultsArePrecise : step (mixed 6) = .fault .invalidRegister := rfl

theorem witness_RunStopsAtItsFirstFault : step (mixed 6) = .fault .invalidRegister ∧ (mixed 6).lastFault = none :=
  ⟨rfl, rfl⟩

theorem witness_ReissuedStepFaultsAgain : step (mixed 7) = .fault .illegalInstruction := rfl

/-- A run that faults, and a program that is in bounds throughout. -/
theorem witness_RunIsFaultFreeIffPathInBounds : StateInv (mixed 6) ∧ (mixed 6).lastFault = none ∧
    ((mixed 6).runFor 1).lastFault = some .invalidRegister ∧ (mixed 6).stopReason = none ∧ StateInv warm ∧
    warm.lastFault = none ∧ programInBounds warm.memLen warm.program = true :=
  ⟨mixed_inv 6 (by decide), rfl, by decide, by decide, warm_inv, by decide, by decide⟩

end Sys2Proof.Tests
end

section
/-! SUPPORT. Family 00_scope.md: no step changes the parameters (R6), and the two levels of description run
alike (R10). -/

namespace Sys2Proof.Machine

/-! ### The parameters (R6) -/

/-- No instruction changes a parameter, whatever state it completes in. -/
theorem exec_sameParams {i : Instr} {s t : State} (h : exec i s = .next t) : SameParams s t := by
  cases i with
  | add d s1 s2 => obtain ⟨-, rfl⟩ := registerOp_next h; exact ⟨rfl, rfl, rfl⟩
  | sub d s1 s2 => obtain ⟨-, rfl⟩ := registerOp_next h; exact ⟨rfl, rfl, rfl⟩
  | load d a => obtain ⟨-, v, c, -, hlen, rfl⟩ := execLoad_next h; exact ⟨rfl, rfl, hlen⟩
  | store a r => obtain ⟨-, -, c, hlen, rfl⟩ := execStore_next h; exact ⟨rfl, rfl, hlen⟩
  | jump k => obtain ⟨-, rfl⟩ := execJump_next h; exact ⟨rfl, rfl, rfl⟩
  | halt => obtain rfl := execHalt_next h; exact ⟨rfl, rfl, rfl⟩

theorem step_sameParams {s t : State} (h : step s = .next t) : SameParams s t := by
  rcases step_next h with ⟨-, rfl⟩ | ⟨i, u, -, hexec, rfl⟩
  · exact ⟨rfl, rfl, rfl⟩
  · exact (exec_sameParams hexec : SameParams s u)

/-- A turn of the driving loop changes no parameter, whether its step completes, faults or is refused, or is
not issued at all. -/
theorem request_sameParams (s : State) : SameParams s s.request := by
  by_cases hlive : s.stopReason = none
  · rw [request_of_live hlive]
    cases hstep : step s with
    | next t => exact step_sameParams hstep
    | fault k => exact ⟨rfl, rfl, rfl⟩
    | refused q => exact ⟨rfl, rfl, rfl⟩
  · rw [request_of_ended hlive]
    exact ⟨rfl, rfl, rfl⟩

theorem runFor_sameParams (s : State) (n : Nat) : SameParams s (s.runFor n) := by
  induction n with
  | zero => exact ⟨rfl, rfl, rfl⟩
  | succ n ih =>
    obtain ⟨hmem, hprog, hcap⟩ := ih
    obtain ⟨hmem', hprog', hcap'⟩ := request_sameParams (s.runFor n)
    rw [runFor_succ]
    exact ⟨hmem'.trans hmem, hprog'.trans hprog, hcap'.trans hcap⟩

/-- Settles O9: every meaning that completes leaves the parameters, and a step is one meaning at most. -/
theorem stepKeepsParameters : Obligations.StepKeepsParameters :=
  fun _ _ h => step_sameParams h

/-! ### Another program in the instruction store -/

theorem andThen_assoc {α β γ : Type} (r : Result α) (f : α → Result β) (g : β → Result γ) :
    andThen (andThen r f) g = andThen r fun a => andThen (f a) g := by
  cases r <;> rfl

section WithProgram
variable (s : State) (p : Program)

@[simp] theorem State.withProgram_memLen : (s.withProgram p).memLen = s.memLen := rfl
@[simp] theorem State.withProgram_program : (s.withProgram p).program = p := rfl
@[simp] theorem State.withProgram_x : (s.withProgram p).x = s.x := rfl
@[simp] theorem State.withProgram_pc : (s.withProgram p).pc = s.pc := rfl
@[simp] theorem State.withProgram_run : (s.withProgram p).run = s.run := rfl
@[simp] theorem State.withProgram_mem : (s.withProgram p).mem = s.mem := rfl
@[simp] theorem State.withProgram_cache : (s.withProgram p).cache = s.cache := rfl
@[simp] theorem State.withProgram_lastFault : (s.withProgram p).lastFault = s.lastFault := rfl
@[simp] theorem State.withProgram_N : (s.withProgram p).N = p.length := rfl
@[simp] theorem State.withProgram_C : (s.withProgram p).C = s.C := rfl
@[simp] theorem State.withProgram_reg (r : Nat) : (s.withProgram p).reg r = s.reg r := rfl
@[simp] theorem State.withProgram_cell (a : Nat) : (s.withProgram p).cell a = s.cell a := rfl

/-! Every update of the state commutes with the replacement. -/

@[simp] theorem State.withProgram_setReg (r : Nat) (v : Word) :
    (s.withProgram p).setReg r v = (s.setReg r v).withProgram p := rfl
@[simp] theorem State.withProgram_advance : (s.withProgram p).advance = s.advance.withProgram p := rfl
@[simp] theorem State.withProgram_jumpTo (k : Nat) : (s.withProgram p).jumpTo k = (s.jumpTo k).withProgram p := rfl
@[simp] theorem State.withProgram_halt : (s.withProgram p).halt = s.halt.withProgram p := rfl
@[simp] theorem State.withProgram_setMem (m : Memory) :
    (s.withProgram p).setMem m = (s.setMem m).withProgram p := rfl
@[simp] theorem State.withProgram_setCache (c : Cache) :
    (s.withProgram p).setCache c = (s.setCache c).withProgram p := rfl
@[simp] theorem State.withProgram_setLastFault (k : Option Fault) :
    (s.withProgram p).setLastFault k = (s.setLastFault k).withProgram p := rfl

/-- The same outcome, with `p` in the instruction store of the next state. -/
def outcomeWithProgram (r : Result State) : Result State := andThen r fun t => .next (t.withProgram p)

theorem outcomeWithProgram_andThen {α : Type} (r : Result α) (f : α → Result State) :
    outcomeWithProgram p (andThen r f) = andThen r fun a => outcomeWithProgram p (f a) :=
  andThen_assoc r f _

theorem andThen_outcomeWithProgram {α : Type} (r : Result State) (f : State → Result α) :
    andThen (outcomeWithProgram p r) f = andThen r fun t => f (t.withProgram p) :=
  andThen_assoc r _ f

@[simp] theorem outcomeWithProgram_next : outcomeWithProgram p (.next s) = .next (s.withProgram p) := rfl
@[simp] theorem outcomeWithProgram_fault (k : Fault) : outcomeWithProgram p (.fault k) = .fault k := rfl
@[simp] theorem outcomeWithProgram_refused (q : Refusal) : outcomeWithProgram p (.refused q) = .refused q := rfl

/-! ### Memory and cache do not read the instruction store (R122) -/

@[simp] theorem memRead_withProgram (a : Nat) : memRead a (s.withProgram p) = memRead a s := rfl

theorem memWrite_withProgram (a : Nat) (v : Word) :
    memWrite a v (s.withProgram p) = outcomeWithProgram p (memWrite a v s) := by
  by_cases ha : a < s.memLen <;> simp [memWrite, ha]

theorem cacheMiss_withProgram (a : Nat) (v : Word) :
    cacheMiss a v (s.withProgram p) = outcomeWithProgram p (cacheMiss a v s) := by
  cases h : s.cache.install a v <;> simp [cacheMiss, h]

theorem cacheLoad_withProgram (a : Nat) :
    cacheLoad a (s.withProgram p) = andThen (cacheLoad a s) fun r => .next (r.1, r.2.withProgram p) := by
  rcases hl : s.cache.lookup a with _ | ⟨i, e⟩
  · simp [cacheLoad, hl, cacheMiss_withProgram, andThen_outcomeWithProgram, andThen_assoc]
  · simp [cacheLoad, hl]

theorem cacheStore_withProgram (a : Nat) (v : Word) :
    cacheStore a v (s.withProgram p) = outcomeWithProgram p (cacheStore a v s) := by
  unfold cacheStore
  rw [memWrite_withProgram, andThen_outcomeWithProgram, outcomeWithProgram_andThen]
  congr 1
  funext t
  rcases hl : t.cache.lookup a with _ | ⟨i, e⟩
  · simp [hl, cacheMiss_withProgram]
  · simp [hl]

/-! ### Meanings and the step -/

theorem registerOp_withProgram (op : Word → Word → Word) (d s1 s2 : Nat) :
    registerOp op d s1 s2 (s.withProgram p) = outcomeWithProgram p (registerOp op d s1 s2 s) := by
  simp [registerOp, outcomeWithProgram_andThen]

theorem execLoad_withProgram (d a : Nat) :
    execLoad d a (s.withProgram p) = outcomeWithProgram p (execLoad d a s) := by
  simp [execLoad, cacheLoad_withProgram, outcomeWithProgram_andThen, andThen_assoc]

theorem execStore_withProgram (a r : Nat) :
    execStore a r (s.withProgram p) = outcomeWithProgram p (execStore a r s) := by
  simp [execStore, cacheStore_withProgram, outcomeWithProgram_andThen, andThen_outcomeWithProgram]

/-- The one meaning that sees something of the program: its length, in the target check (R161). -/
theorem execJump_withProgram {s : State} {p : Program} (hlen : p.length = s.N) (t : Nat) :
    execJump t (s.withProgram p) = outcomeWithProgram p (execJump t s) := by
  simp [execJump, checkTarget, hlen, outcomeWithProgram_andThen]

theorem exec_withProgram {s : State} {p : Program} (hlen : p.length = s.N) (i : Instr) :
    exec i (s.withProgram p) = outcomeWithProgram p (exec i s) := by
  cases i with
  | add d s1 s2 => exact registerOp_withProgram s p addResult d s1 s2
  | sub d s1 s2 => exact registerOp_withProgram s p subResult d s1 s2
  | load d a => exact execLoad_withProgram s p d a
  | store a r => exact execStore_withProgram s p a r
  | jump t => exact execJump_withProgram hlen t
  | halt => rfl

theorem retire_withProgram (r : Result State) :
    retire (outcomeWithProgram p r) = outcomeWithProgram p (retire r) := by
  simp [retire, outcomeWithProgram_andThen, andThen_outcomeWithProgram]

theorem settle_withProgram (r : Result State) :
    settle (s.withProgram p) (outcomeWithProgram p r) = (settle s r).withProgram p := by
  cases r <;> rfl

end WithProgram

section SameListing
variable {s : State} {p : Program}

/-- Two programs with the same instruction, illegal word or nothing at every index are equally long. -/
theorem length_eq_of_programAt_eq {p q : Program} (h : ∀ k, programAt p k = programAt q k) :
    p.length = q.length := by
  have hle (k : Nat) : p.length ≤ k ↔ q.length ≤ k := by
    rw [← programAt_idle, h, programAt_idle]
  exact le_antisymm ((hle _).2 le_rfl) ((hle _).1 le_rfl)

variable (h : ∀ k, programAt p k = programAt s.program k)
include h

theorem fetch_withProgram : fetch (s.withProgram p) = fetch s := by
  cases hr : s.run <;> simp [fetch, hr, h]

/-- Simulation of one step: programs that fetch alike step alike. -/
theorem step_withProgram : step (s.withProgram p) = outcomeWithProgram p (step s) := by
  have hfetch := fetch_withProgram h
  cases hf : fetch s with
  | idle => simp [step, hfetch, hf]
  | illegal why => simp [step, hfetch, hf]
  | instr i =>
    rw [step_of_instr hf, step_of_instr (hfetch.trans hf), exec_withProgram (length_eq_of_programAt_eq h),
      retire_withProgram]

theorem stopReason_withProgram : (s.withProgram p).stopReason = s.stopReason := by
  have hlen : p.length = s.N := length_eq_of_programAt_eq h
  simp [State.stopReason, hlen]

/-- Simulation of one turn of the driving loop. -/
theorem request_withProgram : (s.withProgram p).request = s.request.withProgram p := by
  by_cases hlive : s.stopReason = none
  · rw [request_of_live hlive, request_of_live ((stopReason_withProgram h).trans hlive), step_withProgram h,
      settle_withProgram]
  · rw [request_of_ended hlive, request_of_ended ((stopReason_withProgram h).trans_ne hlive)]

/-- Simulation of a run: the two programs still fetch alike after every turn, since no turn changes the
program. -/
theorem runFor_withProgram (n : Nat) : (s.withProgram p).runFor n = (s.runFor n).withProgram p := by
  induction n with
  | zero => rfl
  | succ n ih =>
    obtain ⟨-, hprog, -⟩ := runFor_sameParams s n
    rw [runFor_succ, runFor_succ, ih]
    exact request_withProgram fun k => by rw [h, hprog]

end SameListing

/-- Words and the instructions they decode to are the same at every index (R123). -/
theorem programAt_words_eq_instrs {is : List Instr} {ws : List InstrWord} (h : ws.map decode = is.map Except.ok)
    (k : Nat) : programAt (.words ws) k = programAt (.instrs is) k := by
  have hk : (ws[k]?).map decode = (is[k]?).map Except.ok := by
    rw [← List.getElem?_map, h, List.getElem?_map]
  cases hi : is[k]? with
  | none =>
    have hw : ws[k]? = none := by simpa [hi] using hk
    simp [programAt, hi, hw]
  | some i =>
    obtain ⟨w, hw, hdec⟩ : ∃ w, ws[k]? = some w ∧ decode w = .ok i := by simpa [hi] using hk
    simp [programAt, hi, hw, hdec]

/-- Settles O36: the words and the instructions they decode to fetch alike, so the two runs go in step. -/
theorem abstractAndBinaryLevelsAgree : Obligations.AbstractAndBinaryLevelsAgree :=
  fun is _ s h n =>
    runFor_withProgram (s := s.withProgram (.instrs is)) (programAt_words_eq_instrs h) n

end Sys2Proof.Machine
end

section
/-! SUPPORT. Family 10_state.md: the run state (R30), register 0 (R22), canonical Memory (R32), and that the
cache is invisible to programs (R41). -/

namespace Sys2Proof.Machine

/-! ### Canonical Memory (R32, log 11) -/

/-- What a list in canonical form lists is exactly what its cells hold: the pairs of an address and its
contents that are not 0. -/
theorem Memory.mem_iff_read {m : Memory} (hm : Memory.wf m) (c : Nat × Word) :
    c ∈ m ↔ c.2 ≠ 0#Config.XLEN ∧ Memory.read m c.1 = c.2 := by
  induction m with
  | nil => simpa using fun h => Ne.symm h
  | cons d m ih =>
    have hlt := Memory.wf_head hm
    by_cases haddr : d.1 = c.1
    · have hnot : c ∉ m := fun hc => (hlt c hc).ne haddr
      have hread : Memory.read (d :: m) c.1 = d.2 := by simp [Memory.read, haddr]
      rw [hread, List.mem_cons]
      constructor
      · rintro (rfl | hc)
        · exact ⟨hm.2 c List.mem_cons_self, rfl⟩
        · exact absurd hc hnot
      · rintro ⟨-, hval⟩
        exact .inl (Prod.ext haddr.symm hval.symm)
    · have hne : c ≠ d := fun h => haddr (h ▸ rfl)
      have hread : Memory.read (d :: m) c.1 = Memory.read m c.1 := by simp [Memory.read, haddr]
      rw [hread, ← ih (Memory.wf_tail hm), List.mem_cons, or_iff_right hne]

/-- Settles O21: the two lists have the same members, and both are sorted by address. -/
theorem canonicalMemoryIsDeterminedByItsCells : Obligations.CanonicalMemoryIsDeterminedByItsCells := by
  intro m n hm hn hread
  have hmem (c : Nat × Word) : c ∈ m ↔ c ∈ n := by
    rw [Memory.mem_iff_read hm, Memory.mem_iff_read hn, hread]
  have : Std.Irrefl fun c d : Nat × Word => c.1 < d.1 := ⟨fun c => Nat.lt_irrefl c.1⟩
  have : Std.Antisymm fun c d : Nat × Word => c.1 < d.1 := ⟨fun _ _ h h' => absurd h h'.asymm⟩
  exact hm.1.eq_of_mem_iff hn.1 hmem

/-! ### The run state (R30) -/

theorem exec_run {i : Instr} {s t : State} (h : exec i s = .next t) (hi : i ≠ .halt) : t.run = s.run := by
  cases i with
  | add d s1 s2 => obtain ⟨-, rfl⟩ := registerOp_next h; rfl
  | sub d s1 s2 => obtain ⟨-, rfl⟩ := registerOp_next h; rfl
  | load d a => obtain ⟨-, v, c, -, -, rfl⟩ := execLoad_next h; rfl
  | store a r => obtain ⟨-, -, c, -, rfl⟩ := execStore_next h; rfl
  | jump k => obtain ⟨-, rfl⟩ := execJump_next h; rfl
  | halt => exact absurd rfl hi

theorem step_of_halt {s : State} (h : fetch s = .instr .halt) : step s = .next (s.halt.setLastFault none) :=
  step_of_instr h

theorem step_run {s t : State} (h : step s = .next t) (hf : fetch s ≠ .instr .halt) : t.run = s.run := by
  rcases step_next h with ⟨-, rfl⟩ | ⟨i, u, hi, hexec, rfl⟩
  · rfl
  · have hne : i ≠ .halt := fun e => hf (e ▸ hi)
    exact (exec_run hexec hne : u.run = s.run)

/-- Settles O11: of the meanings only `Halt`'s writes `run`, and a halted machine fetches nothing. -/
theorem onlyHaltChangesRunState : Obligations.OnlyHaltChangesRunState := by
  refine ⟨fun _ => rfl, fun s hf => ⟨_, step_of_halt hf, rfl⟩, fun s t h hf => step_run h hf, ?_⟩
  intro s t hrun h
  rw [step_of_stopped (.inl hrun)] at h
  cases h
  exact hrun

/-! ### Accesses of a machine that meets the invariant: what `Load` and `Store` do (R152, R153, R69) -/

/-- `Load` puts the cell's value in `x[d]`, whatever the cache holds. -/
theorem execLoad_ok {s : State} (h : StateInv s) {d a : Nat} (hd : d < 32) (ha : a < s.memLen) :
    ∃ c, CacheInv s.memLen s.mem c ∧ execLoad d a s = .next ((s.setCache c).setReg d (s.cell a)).advance := by
  obtain ⟨c, hload, hinv, -⟩ := cacheLoad_ok h.cacheInv ha
  exact ⟨c, hinv, by rw [execLoad, checkRegisters_ok (by simpa using hd), andThen_next, hload]; rfl⟩

/-- `Store` writes `x[r]` to Memory, whatever the cache holds. -/
theorem execStore_ok {s : State} (h : StateInv s) {a r : Nat} (hr : r < 32) (ha : a < s.memLen) :
    ∃ c, CacheInv s.memLen (Memory.write s.mem a (s.reg r)) c ∧
      execStore a r s = .next ((s.setMem (Memory.write s.mem a (s.reg r))).setCache c).advance := by
  obtain ⟨c, hstore, hinv, -⟩ := cacheStore_ok (s.reg r) h.memWf h.cacheInv ha
  exact ⟨c, hinv, by rw [execStore, checkRegisters_ok (by simpa using hr), andThen_next, hstore]; rfl⟩

/-- Under the invariant an address out of range is in no slot, so `Load` has one cause of `OutOfBounds`. -/
theorem execLoad_outOfBounds {s : State} (h : StateInv s) {d a : Nat} (hd : d < 32) (ha : s.memLen ≤ a) :
    execLoad d a s = .fault .outOfBounds := by
  rw [execLoad, checkRegisters_ok (by simpa using hd), andThen_next, cacheLoad_outOfBounds h.cacheInv ha,
    andThen_fault]

theorem execLoad_inBounds {s t : State} (h : StateInv s) {d a : Nat} (hexec : execLoad d a s = .next t) :
    d < 32 ∧ a < s.memLen := by
  obtain ⟨hd, -⟩ := execLoad_next hexec
  refine ⟨hd, Nat.lt_of_not_le fun ha => ?_⟩
  simp [execLoad_outOfBounds h hd ha] at hexec

/-! ### Register 0 (R22, D4) -/

/-- Settles O12: the write rule of registers holds at index 0, and `Add` and `Load` write by it. -/
theorem registerZeroIsOrdinary : Obligations.RegisterZeroIsOrdinary := by
  refine ⟨fun s v => s.reg_setReg_same 0 v (by decide), ?_, ?_⟩
  · intro s a b d ha hb hd
    exact ⟨_, _, registerOp_ok (by decide) ha hb, State.reg_setReg_same _ _ _ (by decide),
      registerOp_ok hd (by decide) (by decide), State.reg_setReg_same _ _ _ hd⟩
  · intro s a hs ha
    obtain ⟨c, -, hload⟩ := execLoad_ok hs (d := 0) (by decide) ha
    exact ⟨_, hload, State.reg_setReg_same _ _ _ (by decide)⟩

/-! ### The invariant along a run (R27, R34, R37, R69, R71) -/

/-- The fault report takes no part in the invariant. -/
theorem StateInv.setLastFault {s : State} (h : StateInv s) (k : Option Fault) : StateInv (s.setLastFault k) :=
  ⟨h.memWf, h.memBelow, h.cacheInv, h.pcInRange, h.programBound⟩

theorem StateInv.setCache {s : State} (h : StateInv s) {c : Cache} (hc : CacheInv s.memLen s.mem c) :
    StateInv (s.setCache c) :=
  ⟨h.memWf, h.memBelow, hc, h.pcInRange, h.programBound⟩

/-- How `Add`, `Sub` and `Load` end: registers take no part in the invariant, and `pc` was inside the program. -/
theorem StateInv.setReg_advance {s : State} (h : StateInv s) (hpc : s.pc < s.N) (r : Nat) (v : Word) :
    StateInv (s.setReg r v).advance :=
  ⟨h.memWf, h.memBelow, h.cacheInv, hpc, h.programBound⟩

/-- An instruction that completes with `pc` inside the program keeps the invariant. -/
theorem exec_stateInv {i : Instr} {s t : State} (h : StateInv s) (hpc : s.pc < s.N) (hexec : exec i s = .next t) :
    StateInv t := by
  cases i with
  | add d s1 s2 =>
    obtain ⟨-, rfl⟩ := registerOp_next hexec
    exact h.setReg_advance hpc d _
  | sub d s1 s2 =>
    obtain ⟨-, rfl⟩ := registerOp_next hexec
    exact h.setReg_advance hpc d _
  | load d a =>
    obtain ⟨hd, ha⟩ := execLoad_inBounds h hexec
    obtain ⟨c, hc, hload⟩ := execLoad_ok h hd ha
    cases hload.symm.trans hexec
    exact (h.setCache hc).setReg_advance hpc d _
  | store a r =>
    obtain ⟨hr, ha, -⟩ := execStore_next hexec
    obtain ⟨c, hc, hstore⟩ := execStore_ok h hr ha
    cases hstore.symm.trans hexec
    exact ⟨Memory.write_wf h.memWf a _, Memory.write_below h.memBelow ha _, hc, hpc, h.programBound⟩
  | jump k =>
    obtain ⟨hk, rfl⟩ := execJump_next hexec
    exact ⟨h.memWf, h.memBelow, h.cacheInv, hk.le, h.programBound⟩
  | halt =>
    obtain rfl := execHalt_next hexec
    exact ⟨h.memWf, h.memBelow, h.cacheInv, h.pcInRange, h.programBound⟩

theorem step_stateInv {s t : State} (h : StateInv s) (hstep : step s = .next t) : StateInv t := by
  rcases step_next hstep with ⟨-, rfl⟩ | ⟨i, u, hfetch, hexec, rfl⟩
  · exact h
  · obtain ⟨-, hpc, -⟩ := fetch_instr hfetch
    exact (exec_stateInv h hpc hexec).setLastFault none

theorem request_stateInv {s : State} (h : StateInv s) : StateInv s.request := by
  by_cases hlive : s.stopReason = none
  · rw [request_of_live hlive]
    cases hstep : step s with
    | next t => exact step_stateInv h hstep
    | fault k => exact h.setLastFault (some k)
    | refused q => exact h
  · rwa [request_of_ended hlive]

theorem runFor_stateInv {s : State} (h : StateInv s) (n : Nat) : StateInv (s.runFor n) := by
  induction n with
  | zero => exact h
  | succ n ih => rw [runFor_succ]; exact request_stateInv ih

/-! ### Two runs in lockstep -/

/-- Two outcomes of the same kind: related next states, or the same fault or refusal. -/
inductive OutcomesRelated (R : State → State → Prop) : Result State → Result State → Prop where
  | next {s t : State} (h : R s t) : OutcomesRelated R (.next s) (.next t)
  | fault (k : Fault) : OutcomesRelated R (.fault k) (.fault k)
  | refused (q : Refusal) : OutcomesRelated R (.refused q) (.refused q)

section Outcomes
variable {R : State → State → Prop}

/-- A first part that both machines share, its outcome included, leaves the relation to the second parts. -/
theorem OutcomesRelated.andThen {α : Type} (r : Result α) {f g : α → Result State}
    (h : ∀ a, OutcomesRelated R (f a) (g a)) : OutcomesRelated R (andThen r f) (andThen r g) := by
  cases r with
  | next a => exact h a
  | fault k => exact .fault k
  | refused q => exact .refused q

variable (hreport : ∀ {s t}, R s t → ∀ k, R (s.setLastFault k) (t.setLastFault k)) {r r' : Result State}
include hreport

theorem OutcomesRelated.retire (h : OutcomesRelated R r r') : OutcomesRelated R (retire r) (retire r') := by
  cases h with
  | next h => exact .next (hreport h none)
  | fault k => exact .fault k
  | refused q => exact .refused q

theorem OutcomesRelated.settle {s t : State} (hst : R s t) (h : OutcomesRelated R r r') :
    R (settle s r) (settle t r') := by
  cases h with
  | next h => exact h
  | fault k => exact hreport hst (some k)
  | refused q => exact hst

end Outcomes

/-- What a relation of two machines that meet the invariant needs for every turn of the driving loop to keep
it: related machines fetch and stop alike, and each instruction has related outcomes. -/
structure Lockstep (R : State → State → Prop) : Prop where
  fetch_eq : ∀ {s t}, R s t → fetch t = fetch s
  stopReason_eq : ∀ {s t}, R s t → t.stopReason = s.stopReason
  setLastFault : ∀ {s t}, R s t → ∀ k, R (s.setLastFault k) (t.setLastFault k)
  exec_related : ∀ {s t}, StateInv s → StateInv t → R s t → ∀ i, OutcomesRelated R (exec i s) (exec i t)

section Lockstep
variable {R : State → State → Prop} (hR : Lockstep R) {s t : State} (hs : StateInv s) (ht : StateInv t)
  (h : R s t)
include hR hs ht h

theorem Lockstep.step_related : OutcomesRelated R (step s) (step t) := by
  have hfetch := hR.fetch_eq h
  cases hf : fetch s with
  | idle =>
    rw [step_of_stopped (fetch_idle.1 hf), step_of_stopped (fetch_idle.1 (hfetch.trans hf))]
    exact .next h
  | illegal why =>
    simp only [step, hfetch, hf]
    exact .fault .illegalInstruction
  | instr i =>
    rw [step_of_instr hf, step_of_instr (hfetch.trans hf)]
    exact (hR.exec_related hs ht h i).retire hR.setLastFault

theorem Lockstep.request_related : R s.request t.request := by
  by_cases hlive : s.stopReason = none
  · rw [request_of_live hlive, request_of_live ((hR.stopReason_eq h).trans hlive)]
    exact (hR.step_related hs ht h).settle hR.setLastFault h
  · rwa [request_of_ended hlive, request_of_ended ((hR.stopReason_eq h).trans_ne hlive)]

/-- The relation holds after every number of turns, the invariant being kept on both sides. -/
theorem Lockstep.runFor_related (n : Nat) : R (s.runFor n) (t.runFor n) := by
  induction n with
  | zero => exact h
  | succ n ih =>
    rw [runFor_succ, runFor_succ]
    exact hR.request_related (runFor_stateInv hs n) (runFor_stateInv ht n) ih

end Lockstep

/-! ### The cache is invisible to programs (R41) -/

theorem agreeButCache_setCache (s : State) (d : Cache) : AgreeButCache s (s.setCache d) :=
  ⟨rfl, rfl, rfl, rfl, rfl, rfl, rfl⟩

/-- States that agree on all but the cache are one state with two caches. -/
theorem eq_setCache_of_agreeButCache {s t : State} (h : AgreeButCache s t) : t = s.setCache t.cache := by
  obtain ⟨hmemLen, hprogram, hx, hpc, hrun, hmem, hlastFault⟩ := h
  cases s
  cases t
  simp_all [State.setCache]

/-- No meaning but `Load`'s and `Store`'s reads the cache; under the invariant these two give the same value,
the same Memory and the same fault with any cache (R69). -/
theorem exec_agreeButCache {s : State} {d : Cache} (hs : StateInv s) (ht : StateInv (s.setCache d)) (i : Instr) :
    OutcomesRelated AgreeButCache (exec i s) (exec i (s.setCache d)) := by
  cases i with
  | add e s1 s2 => exact .andThen _ fun _ => .next (agreeButCache_setCache _ d)
  | sub e s1 s2 => exact .andThen _ fun _ => .next (agreeButCache_setCache _ d)
  | load e a =>
    refine .andThen _ fun _ => ?_
    rcases Nat.lt_or_ge a s.memLen with ha | ha
    · obtain ⟨c, hc, -⟩ := cacheLoad_ok hs.cacheInv ha
      obtain ⟨c', hc', -⟩ := cacheLoad_ok ht.cacheInv ha
      rw [hc, hc']
      exact .next (agreeButCache_setCache _ c')
    · rw [cacheLoad_outOfBounds hs.cacheInv ha, cacheLoad_outOfBounds ht.cacheInv ha]
      exact .fault .outOfBounds
  | store a r =>
    refine .andThen _ fun _ => ?_
    rcases Nat.lt_or_ge a s.memLen with ha | ha
    · obtain ⟨c, hc, -⟩ := cacheStore_ok (s.reg r) hs.memWf hs.cacheInv ha
      obtain ⟨c', hc', -⟩ := cacheStore_ok (s.reg r) ht.memWf ht.cacheInv ha
      rw [State.setCache_reg, hc, hc']
      exact .next (agreeButCache_setCache _ c')
    · rw [State.setCache_reg, cacheStore_outOfBounds _ ha, cacheStore_outOfBounds (s := s.setCache d) _ ha]
      exact .fault .outOfBounds
  | jump k => exact .andThen _ fun _ => .next (agreeButCache_setCache _ d)
  | halt => exact .next (agreeButCache_setCache _ d)

theorem lockstep_agreeButCache : Lockstep AgreeButCache where
  fetch_eq h := by rw [eq_setCache_of_agreeButCache h]; rfl
  stopReason_eq h := by rw [eq_setCache_of_agreeButCache h]; rfl
  setLastFault h k := by
    rw [eq_setCache_of_agreeButCache h]
    exact agreeButCache_setCache _ _
  exec_related hs ht h i := by
    rw [eq_setCache_of_agreeButCache h] at ht ⊢
    exact exec_agreeButCache hs ht i

/-- Settles O37: machines that agree on all but the cache go in lockstep. -/
theorem cacheIsInvisibleToPrograms : Obligations.CacheIsInvisibleToPrograms :=
  fun _ _ hs ht h n => lockstep_agreeButCache.runFor_related hs ht h n

end Sys2Proof.Machine
end

section
/-! SUPPORT. Family 20_memory.md: the bounds of Memory (R53, R54), the cache algorithms case by case (R60 to
R66), and what an access does to Memory, to the recency order and to the counters (R67 to R73). -/

namespace Sys2Proof.Machine

/-- Settles O7: the invariant is kept by every instruction that completes with `pc` inside the program. -/
theorem stepKeepsInvariant : Obligations.StepKeepsInvariant :=
  fun _ _ hs hstep => step_stateInv hs hstep

/-! ### The Memory primitives (R53, R54) -/

/-- Settles O20: both primitives test the bound first; the laws of `Memory.write` give the cells. -/
theorem memoryPrimitivesAreBoundsChecked : Obligations.MemoryPrimitivesAreBoundsChecked := by
  refine ⟨fun a s ha => if_neg ha.not_gt, fun a s ha => if_pos ha, fun a v s ha => if_neg ha.not_gt, ?_⟩
  intro a v s hwf ha
  exact ⟨_, if_pos ha, Memory.read_write_same hwf a v, fun b hb => Memory.read_write_other s.mem v hb,
    rfl, rfl, rfl, rfl, rfl, rfl, rfl, rfl⟩

/-! ### Lookup, exactly (R60) -/

/-- A slot that holds `a` is the one that `lookup` answers, since by I1 there is no other. -/
theorem CacheInv.lookup_eq_some {n : Nat} {m : Memory} {c : Cache} (h : CacheInv n m c) {i : Nat} {e : Slot}
    (hi : c.slotAt i = some e) : c.lookup e.addr = some (i, e) := by
  cases hl : c.lookup e.addr with
  | none => exact absurd rfl (Cache.lookup_none hl i e hi)
  | some p =>
    obtain ⟨hj, haddr⟩ := Cache.lookup_some hl
    obtain rfl : p.1 = i := h.slot_unique hj hi haddr
    rw [← Option.some.inj (hj.symm.trans hi)]

theorem Cache.lookup_eq_none {c : Cache} {a : Nat} (h : ∀ i e, c.slotAt i = some e → e.addr ≠ a) :
    c.lookup a = none := by
  cases hl : c.lookup a with
  | none => rfl
  | some p =>
    obtain ⟨hi, haddr⟩ := Cache.lookup_some hl
    exact absurd haddr (h p.1 p.2 hi)

theorem Cache.lookup_of_no_slots {c : Cache} (h : c.slots.length = 0) (a : Nat) : c.lookup a = none := by
  simp [Cache.lookup, List.length_eq_zero_iff.1 h, lookupFrom]

/-! ### Which slot a miss fills (R62, R63, R66) -/

theorem Cache.install_of_no_slots {c : Cache} (h : c.slots.length = 0) (a : Nat) (v : Word) :
    c.install a v = some c := if_pos h

theorem Cache.slotAt_eq_getElem {c : Cache} {i : Nat} (hi : i < c.slots.length) : c.slotAt i = c.slots[i] := by
  simp [Cache.slotAt, hi]

/-- The lowest-numbered invalid slot is filled (D11). -/
theorem Cache.install_of_invalid {c : Cache} {i : Nat} (hi : i < c.slots.length) (hinvalid : c.slotAt i = none)
    (hlowest : ∀ j, j < i → (c.slotAt j).isSome = true) (a : Nat) (v : Word) :
    c.install a v =
      some { c with slots := c.slots.set i (some { addr := a, val := v }), lru := i :: c.lru } := by
  have hfind : c.slots.findIdx? Option.isNone = some i := by
    refine List.findIdx?_eq_some_iff_getElem.2 ⟨hi, ?_, fun j hj => ?_⟩
    · simp [← Cache.slotAt_eq_getElem hi, hinvalid]
    · rw [← Cache.slotAt_eq_getElem (hj.trans hi)]
      simpa [← Option.isSome_iff_ne_none] using hlowest j hj
  have htake : c.takeSlot = some (i, c) := by simp [Cache.takeSlot, hfind]
  rw [Cache.install, if_neg (Nat.ne_zero_of_lt hi), htake]
  rfl

/-- In a full cache the slot at the end of `lru` is evicted and filled. -/
theorem Cache.install_of_full {c : Cache} {i : Nat} {l : List Nat}
    (hfull : ∀ j, j < c.slots.length → (c.slotAt j).isSome = true) (hlru : c.lru = l ++ [i])
    (hi : i < c.slots.length) (a : Nat) (v : Word) :
    c.install a v = some { c with slots := c.slots.set i (some { addr := a, val := v }), lru := i :: l } := by
  have hfind : c.slots.findIdx? Option.isNone = none := by
    refine List.findIdx?_eq_none_iff.2 fun o ho => ?_
    obtain ⟨j, hj, rfl⟩ := List.getElem_of_mem ho
    simpa [Cache.slotAt_eq_getElem hj, ← Option.isSome_iff_ne_none] using hfull j hj
  have htake : c.takeSlot = some (i, c.evict i) := by simp [Cache.takeSlot, hfind, hlru, hi]
  rw [Cache.install, if_neg (Nat.ne_zero_of_lt hi), htake]
  simp [Cache.fill, Cache.evict, Cache.pushFront, hlru]

/-! ### The cache algorithms, on a hit and on a miss (R64, R65) -/

section Algorithms
variable {a i : Nat} {e : Slot} {v : Word} {c : Cache} {s : State}

theorem cacheMiss_of_install (hc : s.cache.install a v = some c) :
    cacheMiss a v s = .next (s.setCache c.countMiss) := by
  simp [cacheMiss, hc]

theorem cacheLoad_of_hit (h : s.cache.lookup a = some (i, e)) :
    cacheLoad a s = .next (e.val, s.setCache (s.cache.touch i).countHit) := by
  simp [cacheLoad, h]

theorem cacheLoad_of_miss (ha : a < s.memLen) (h : s.cache.lookup a = none)
    (hc : s.cache.install a (s.cell a) = some c) :
    cacheLoad a s = .next (s.cell a, s.setCache c.countMiss) := by
  simp [cacheLoad, h, memRead, ha, cacheMiss_of_install hc]

theorem cacheStore_of_hit (v : Word) (ha : a < s.memLen) (h : s.cache.lookup a = some (i, e)) :
    cacheStore a v s = .next
      ((s.setMem (Memory.write s.mem a v)).setCache ((s.cache.fill i a v).touch i).countHit) := by
  simp [cacheStore, memWrite, ha, h]

theorem cacheStore_of_lookup_none (v : Word) (ha : a < s.memLen) (h : s.cache.lookup a = none) :
    cacheStore a v s = cacheMiss a v (s.setMem (Memory.write s.mem a v)) := by
  simp [cacheStore, memWrite, ha, h]

theorem cacheStore_of_miss (ha : a < s.memLen) (h : s.cache.lookup a = none)
    (hc : s.cache.install a v = some c) :
    cacheStore a v s = .next ((s.setMem (Memory.write s.mem a v)).setCache c.countMiss) :=
  (cacheStore_of_lookup_none v ha h).trans (cacheMiss_of_install hc)

end Algorithms

/-- Under the invariants the slot at the end of `lru` is a slot of the cache. -/
theorem CacheInv.lru_last_lt {n : Nat} {m : Memory} {c : Cache} (h : CacheInv n m c) {i : Nat} {l : List Nat}
    (hlru : c.lru = l ++ [i]) : i < c.slots.length := by
  obtain ⟨e, he⟩ := Option.isSome_iff_exists.1 (h.lruValid i (by simp [hlru]))
  exact Cache.slotAt_lt he

/-- Settles O22: the hit by the one slot of I1; the three misses by what `install` does. -/
theorem cacheLoadFollowsItsAlgorithm : Obligations.CacheLoadFollowsItsAlgorithm := by
  intro a s h
  refine ⟨?hit, fun ha => cacheLoad_outOfBounds h ha, fun ha hmiss => ?miss⟩
  case hit =>
    rintro i e hi rfl
    exact cacheLoad_of_hit (h.lookup_eq_some hi)
  case miss =>
    have hnone := Cache.lookup_eq_none hmiss
    refine ⟨fun hC => ?_, fun i hi hinvalid hlowest => ?_, fun i l hfull hlru => ?_⟩
    · exact cacheLoad_of_miss ha hnone (Cache.install_of_no_slots hC _ _)
    · exact cacheLoad_of_miss ha hnone (Cache.install_of_invalid hi hinvalid hlowest _ _)
    · exact cacheLoad_of_miss ha hnone (Cache.install_of_full hfull hlru (h.lru_last_lt hlru) _ _)

/-- Settles O23: a hit is in range by I2, so Memory is written; the rest is as for the load. -/
theorem cacheStoreFollowsItsAlgorithm : Obligations.CacheStoreFollowsItsAlgorithm := by
  intro a v s h
  refine ⟨fun ha => cacheStore_outOfBounds v ha, ?hit, fun ha hmiss => ?miss⟩
  case hit =>
    rintro i e hi rfl
    exact cacheStore_of_hit v (h.slot_lt hi) (h.lookup_eq_some hi)
  case miss =>
    have hnone := Cache.lookup_eq_none hmiss
    refine ⟨fun hC => ?_, fun i hi hinvalid hlowest => ?_, fun i l hfull hlru => ?_⟩
    · exact cacheStore_of_miss ha hnone (Cache.install_of_no_slots hC _ _)
    · exact cacheStore_of_miss ha hnone (Cache.install_of_invalid hi hinvalid hlowest _ _)
    · exact cacheStore_of_miss ha hnone (Cache.install_of_full hfull hlru (h.lru_last_lt hlru) _ _)

/-- Settles O24: without slots nothing is looked up and nothing is installed, in any state. -/
theorem capacityZeroAlwaysMisses : Obligations.CapacityZeroAlwaysMisses := by
  intro a v s hC
  have hnone := Cache.lookup_of_no_slots hC a
  have hinstall := Cache.install_of_no_slots hC a
  have hslots : s.cache.slots = [] := List.length_eq_zero_iff.1 hC
  rw [← hslots]
  exact ⟨hnone, fun ha => cacheLoad_of_miss ha hnone (hinstall _), fun ha => cacheStore_of_miss ha hnone (hinstall v),
    hinstall v, fun ha => ⟨cacheLoad_fault.2 ⟨rfl, hnone, ha⟩, cacheStore_outOfBounds v ha⟩⟩

/-- Settles O25: the frames of the two cache operations. -/
theorem evictionWritesNothingBack : Obligations.EvictionWritesNothingBack := by
  refine ⟨fun a v s t h => ?_, fun a v s t h => ?_⟩
  · obtain ⟨c, rfl, -⟩ := cacheLoad_next h
    rfl
  · obtain ⟨-, c, rfl, -⟩ := cacheStore_next h
    rfl

/-! ### Instructions that access the cache, and the others -/

/-- No instruction but `Load` and `Store` touches the cache state (R68). -/
theorem exec_cache_of_no_access {i : Instr} {s t : State} (h : exec i s = .next t) (hi : accessAddr i = none) :
    t.cache = s.cache := by
  cases i with
  | add d s1 s2 => obtain ⟨-, rfl⟩ := registerOp_next h; rfl
  | sub d s1 s2 => obtain ⟨-, rfl⟩ := registerOp_next h; rfl
  | load d a => cases hi
  | store a r => cases hi
  | jump k => obtain ⟨-, rfl⟩ := execJump_next h; rfl
  | halt => obtain rfl := execHalt_next h; rfl

/-- A cache load of `a`, or a cache store to `a`, takes `s` to `u`. -/
inductive CacheAccess (a : Nat) (s u : State) : Prop where
  | load (v : Word) (h : cacheLoad a s = .next (v, u))
  | store (v : Word) (h : cacheStore a v s = .next u)

/-- `Load` and `Store` reach Memory and the cache by one access to their address, and by nothing else. -/
theorem exec_access {i : Instr} {a : Nat} {s t : State} (h : exec i s = .next t) (hi : accessAddr i = some a) :
    ∃ u, CacheAccess a s u ∧ t.memLen = u.memLen ∧ t.mem = u.mem ∧ t.cache = u.cache := by
  cases i with
  | load d b =>
    obtain rfl : b = a := Option.some.inj hi
    obtain ⟨-, v, c, hload, -, rfl⟩ := execLoad_next h
    exact ⟨s.setCache c, .load v hload, rfl, rfl, rfl⟩
  | store b r =>
    obtain rfl : b = a := Option.some.inj hi
    obtain ⟨-, -, h⟩ := andThen_eq_next.1 h
    obtain ⟨u, hstore, hend⟩ := andThen_eq_next.1 h
    cases hend
    exact ⟨u, .store _ hstore, rfl, rfl, rfl⟩
  | add d s1 s2 => cases hi
  | sub d s1 s2 => cases hi
  | jump k => cases hi
  | halt => cases hi

/-! ### The counters (R73, D12) -/

theorem Cache.takeSlot_counters {c d : Cache} {i : Nat} (h : c.takeSlot = some (i, d)) :
    d.hits = c.hits ∧ d.misses = c.misses := by
  unfold Cache.takeSlot at h
  split at h
  · cases h; exact ⟨rfl, rfl⟩
  · split at h
    · split at h <;> cases h
      exact ⟨rfl, rfl⟩
    · cases h

theorem Cache.install_counters {c d : Cache} {a : Nat} {v : Word} (h : c.install a v = some d) :
    d.hits = c.hits ∧ d.misses = c.misses := by
  unfold Cache.install at h
  split at h
  · cases h; exact ⟨rfl, rfl⟩
  · split at h
    · rename_i i e htake
      cases h
      exact (Cache.takeSlot_counters htake : e.hits = c.hits ∧ e.misses = c.misses)
    · cases h

theorem cacheMiss_counters {a : Nat} {v : Word} {s t : State} (h : cacheMiss a v s = .next t) :
    t.cache.hits = s.cache.hits ∧ t.cache.misses = s.cache.misses + 1 := by
  unfold cacheMiss at h
  split at h
  · rename_i c hinstall
    cases h
    obtain ⟨hhits, hmisses⟩ := Cache.install_counters hinstall
    simp [hhits, hmisses]
  · cases h

theorem CacheAccess.counters_of_miss {a : Nat} {s u : State} (h : CacheAccess a s u)
    (hl : s.cache.lookup a = none) : u.cache.hits = s.cache.hits ∧ u.cache.misses = s.cache.misses + 1 := by
  cases h with
  | load v h =>
    simp only [cacheLoad, hl] at h
    obtain ⟨w, -, h⟩ := andThen_eq_next.1 h
    obtain ⟨t, hmiss, hend⟩ := andThen_eq_next.1 h
    cases hend
    exact cacheMiss_counters hmiss
  | store v h =>
    obtain ⟨ha, -⟩ := cacheStore_next h
    rw [cacheStore_of_lookup_none v ha hl] at h
    exact (cacheMiss_counters h :)

theorem CacheAccess.counters_of_hit {a i : Nat} {e : Slot} {s u : State} (h : CacheAccess a s u)
    (hl : s.cache.lookup a = some (i, e)) :
    u.cache.hits = s.cache.hits + 1 ∧ u.cache.misses = s.cache.misses := by
  cases h with
  | load v h =>
    cases (cacheLoad_of_hit hl).symm.trans h
    exact ⟨rfl, rfl⟩
  | store v h =>
    obtain ⟨ha, -⟩ := cacheStore_next h
    cases (cacheStore_of_hit v ha hl).symm.trans h
    exact ⟨rfl, rfl⟩

/-- Settles O27: a hit counts as a hit, a miss as a miss, and without slots `lookup` finds nothing. -/
theorem eachAccessCountsOnce : Obligations.EachAccessCountsOnce := by
  intro i s t h
  refine ⟨fun hi => by simp [exec_cache_of_no_access h hi], fun a hi => ?_⟩
  obtain ⟨u, hacc, -, -, hcache⟩ := exec_access h hi
  rw [hcache]
  refine ⟨fun hl => ?_, hacc.counters_of_miss, fun hC => hacc.counters_of_miss (Cache.lookup_of_no_slots hC a)⟩
  obtain ⟨p, hp⟩ := Option.isSome_iff_exists.1 hl
  exact hacc.counters_of_hit hp

/-! ### The recency order (R68, R70) -/

/-- What an access needs of the state, and keeps: Memory in canonical form and the cache invariants. The pc
takes no part in it, so that a list of instructions can be executed from any pc. -/
structure MemoryInv (s : State) : Prop where
  memWf : Memory.wf s.mem
  cacheInv : CacheInv s.memLen s.mem s.cache

theorem StateInv.memoryInv {s : State} (h : StateInv s) : MemoryInv s := ⟨h.memWf, h.cacheInv⟩

/-- The recency law of R70, read on the addresses. -/
theorem map_fst_afterAccess (n a : Nat) (v : Word) (q : List (Nat × Word)) :
    (afterAccess n a v q).map Prod.fst = (a :: (q.map Prod.fst).filter fun b => decide (b ≠ a)).take n := by
  simp [afterAccess, List.map_take, List.filter_map, Function.comp_def]

/-- An access keeps the invariants and moves its address to the front (R68, R69, R70). -/
theorem CacheAccess.recency {a : Nat} {s u : State} (hs : MemoryInv s) (h : CacheAccess a s u) :
    MemoryInv u ∧ u.cache.addrs = (a :: s.cache.addrs.filter fun b => decide (b ≠ a)).take s.C := by
  cases h with
  | load v h =>
    have ha : a < s.memLen := Nat.lt_of_not_le fun ha => by simp [cacheLoad_outOfBounds hs.cacheInv ha] at h
    obtain ⟨c, hload, hinv, -, hqueue, -⟩ := cacheLoad_ok hs.cacheInv ha
    cases hload.symm.trans h
    exact ⟨⟨hs.memWf, hinv⟩, (congrArg (List.map Prod.fst) hqueue).trans (map_fst_afterAccess _ _ _ _)⟩
  | store v h =>
    obtain ⟨ha, -⟩ := cacheStore_next h
    obtain ⟨c, hstore, hinv, -, hqueue, -⟩ := cacheStore_ok v hs.memWf hs.cacheInv ha
    cases hstore.symm.trans h
    exact ⟨⟨Memory.write_wf hs.memWf a v, hinv⟩,
      (congrArg (List.map Prod.fst) hqueue).trans (map_fst_afterAccess _ _ _ _)⟩

/-- The same of a `Load` or `Store` that completes. -/
theorem exec_access_recency {i : Instr} {a : Nat} {s t : State} (hs : MemoryInv s) (h : exec i s = .next t)
    (hi : accessAddr i = some a) :
    MemoryInv t ∧ t.cache.addrs = (a :: s.cache.addrs.filter fun b => decide (b ≠ a)).take s.C := by
  obtain ⟨u, hacc, hlen, hmem, hcache⟩ := exec_access h hi
  obtain ⟨hu, haddrs⟩ := hacc.recency hs
  rw [← hcache] at haddrs
  exact ⟨⟨hmem ▸ hu.memWf, by rw [hlen, hmem, hcache]; exact hu.cacheInv⟩, haddrs⟩

/-- A turn of the driving loop whose step faults leaves the whole cache (R68, R176). -/
theorem request_cache_of_fault {s : State} {k : Fault} (h : step s = .fault k) : s.request.cache = s.cache := by
  by_cases hlive : s.stopReason = none
  · rw [request_of_live hlive, h]
    rfl
  · rw [request_of_ended hlive]

/-- Settles O26: only an access that completes touches the cache, and it obeys the recency law. -/
theorem onlyAccessesChangeRecency : Obligations.OnlyAccessesChangeRecency := by
  refine ⟨fun i s t h => ⟨exec_cache_of_no_access h, fun a hs hi => ?_⟩, fun s k h => ?_⟩
  · obtain ⟨-, haddrs⟩ := exec_access_recency hs.memoryInv h hi
    exact haddrs
  · rw [request_cache_of_fault h]
    exact ⟨rfl, rfl⟩

/-! ### Accesses to distinct addresses (R72 b) -/

/-- Cutting the tail to `n` first changes nothing about the first `n`. -/
theorem take_append_take {α : Type} (l m : List α) (n : Nat) : (l ++ m.take n).take n = (l ++ m).take n := by
  rw [List.take_append, List.take_append, List.take_take, Nat.min_eq_left (Nat.sub_le n l.length)]

/-- At most `C` addresses are cached (I6). -/
theorem MemoryInv.addrs_length_le {s : State} (h : MemoryInv s) : s.cache.addrs.length ≤ s.C := by
  rw [Cache.addrs, List.length_map, h.cacheInv.queue_length]
  exact h.cacheInv.lruLength.2

/-- Each access to an address that is not cached goes in front of what is there; the first `C` stay. -/
theorem execAll_distinct_addrs {is : List Instr} {as : List Nat} {s t : State} (hs : MemoryInv s)
    (his : is.map accessAddr = as.map some) (hnodup : (as.reverse ++ s.cache.addrs).Nodup)
    (h : execAll is s = .next t) : t.cache.addrs = (as.reverse ++ s.cache.addrs).take s.C := by
  induction is generalizing as s with
  | nil =>
    obtain rfl : as = [] := by simpa using his.symm
    cases h
    exact (List.take_of_length_le hs.addrs_length_le).symm
  | cons i is ih =>
    obtain ⟨a, as, rfl⟩ : ∃ a bs, as = a :: bs := List.exists_cons_of_ne_nil (by rintro rfl; simp at his)
    obtain ⟨hi, his⟩ := List.cons.inj his
    obtain ⟨u, hexec, h⟩ := andThen_eq_next.1 h
    rw [List.reverse_cons, List.append_assoc, List.singleton_append] at hnodup ⊢
    obtain ⟨hu, haddrs⟩ := exec_access_recency hs hexec hi
    obtain ⟨-, -, hC⟩ := exec_sameParams hexec
    have hnew : a ∉ s.cache.addrs := (List.nodup_cons.1 hnodup.of_append_right).1
    have hfilter : s.cache.addrs.filter (fun b => decide (b ≠ a)) = s.cache.addrs :=
      List.filter_eq_self.2 fun b hb => decide_eq_true fun hba => hnew (hba ▸ hb)
    rw [hfilter] at haddrs
    have hnodup' : (as.reverse ++ u.cache.addrs).Nodup :=
      hnodup.sublist (haddrs ▸ (List.take_sublist _ _).append_left _)
    calc t.cache.addrs = (as.reverse ++ u.cache.addrs).take s.C := hC ▸ ih hu his hnodup' h
      _ = (as.reverse ++ (a :: s.cache.addrs)).take s.C := by rw [haddrs, take_append_take]

/-- Settles O28: from an empty cache the accesses, newest first and cut to `C`, are what is cached. -/
theorem distinctAccessesEvictTheFirst : Obligations.DistinctAccessesEvictTheFirst := by
  intro is as s t hs hlru his hnodup h
  have hempty : s.cache.addrs = [] := by simp [Cache.addrs, Cache.queue, hlru]
  have haddrs : t.cache.addrs = as.reverse.take s.C := by
    simpa [hempty] using execAll_distinct_addrs hs.memoryInv his (by simpa [hempty] using hnodup) h
  refine ⟨haddrs, ?_⟩
  rintro a bs rfl hlen
  have hrest : t.cache.addrs = bs.reverse := by
    rw [haddrs, List.reverse_cons, List.take_left' (by simpa using hlen)]
  rw [hrest]
  exact ⟨fun ha => (List.nodup_cons.1 hnodup).1 (List.mem_reverse.1 ha), fun b hb => List.mem_reverse.2 hb⟩

end Sys2Proof.Machine
end

section
/-! SUPPORT. Family 30_encoding.md: encoder and decoder are partial inverses (R102), the opcode map by mask and
match (R97, R98), and the illegal words with their fault (R99, R101). -/

namespace Sys2Proof

/-! ### Fields (R92 to R96) -/

theorem field_zero (w : InstrWord) (len : Nat) : field w 0 len = w.toNat % 2 ^ len := by
  rw [field_eq, Nat.pow_zero, Nat.div_one]

theorem field_opcode (w : InstrWord) : field w 24 8 = w.toNat / 2 ^ 24 := by
  have hlt : w.toNat / 2 ^ 24 < 2 ^ 8 := Nat.div_lt_of_lt_mul w.isLt
  rw [field_eq, Nat.mod_eq_of_lt hlt]

theorem field8_le (w : InstrWord) (lo : Nat) : field w lo 8 ≤ 255 := Nat.le_of_lt_succ (field_lt w lo 8)

theorem field16_le (w : InstrWord) (lo : Nat) : field w lo 16 ≤ 65535 := Nat.le_of_lt_succ (field_lt w lo 16)

theorem field24_le (w : InstrWord) (lo : Nat) : field w lo 24 ≤ 16777215 := Nat.le_of_lt_succ (field_lt w lo 24)

/-! ### A word put together from fields that fit reads them back -/

section Formats
variable {op : BitVec 8} {d s1 s2 r a t : Nat}

theorem fields_formatR (hd : d ≤ 255) (h1 : s1 ≤ 255) (h2 : s2 ≤ 255) :
    field (formatR op d s1 s2) 16 8 = d ∧ field (formatR op d s1 s2) 8 8 = s1 ∧
      field (formatR op d s1 s2) 0 8 = s2 := by
  simp only [field_eq, formatR_toNat]
  omega

theorem fields_formatM (hr : r ≤ 255) (ha : a ≤ 65535) :
    field (formatM op r a) 16 8 = r ∧ field (formatM op r a) 0 16 = a := by
  simp only [field_eq, formatM_toNat]
  omega

theorem field_formatJ (ht : t ≤ 16777215) : field (formatJ op t) 0 24 = t := by
  simp only [field_eq, formatJ_toNat]
  omega

theorem field_formatZ : field (formatZ op) 0 24 = 0 := by
  simp only [field_eq, formatZ_toNat]
  omega

/-! ### A word is its opcode and its fields, put together in any of the formats -/

variable {w : InstrWord}

theorem formatR_fields (hop : field w 24 8 = op.toNat) :
    formatR op (field w 16 8) (field w 8 8) (field w 0 8) = w := by
  refine BitVec.eq_of_toNat_eq ?_
  rw [formatR_toNat, word_split w, low_splitR w, hop]
  have := field8_le w 16; have := field8_le w 8; have := field8_le w 0
  omega

theorem formatM_fields (hop : field w 24 8 = op.toNat) : formatM op (field w 16 8) (field w 0 16) = w := by
  refine BitVec.eq_of_toNat_eq ?_
  rw [formatM_toNat, word_split w, low_splitM w, hop]
  have := field8_le w 16; have := field16_le w 0
  omega

theorem formatJ_fields (hop : field w 24 8 = op.toNat) : formatJ op (field w 0 24) = w := by
  refine BitVec.eq_of_toNat_eq ?_
  rw [formatJ_toNat, word_split w, hop]
  have := field24_le w 0
  omega

theorem formatZ_of_fields (hop : field w 24 8 = op.toNat) (hlow : field w 0 24 = 0) : formatZ op = w := by
  refine BitVec.eq_of_toNat_eq ?_
  rw [formatZ_toNat, word_split w, hop, hlow, Nat.add_zero]

end Formats

/-! ### The decoder, opcode by opcode (R98) -/

section Decoder
variable {w : InstrWord} {i : Instr}

/-- A word that decodes to `i` carries the opcode of `i`. -/
theorem opcode_of_decode (h : decode w = .ok i) : field w 24 8 = Laws.Encodable.opcode i := by
  rcases decode_cases w with ⟨hop, hd⟩ | ⟨hop, hd⟩ | ⟨hop, hd⟩ | ⟨hop, hd⟩ | ⟨hop, hd⟩ | ⟨hop, -, hd⟩ |
    ⟨-, -, hd⟩ | ⟨-, hd⟩ <;> cases hd.symm.trans h <;> exact hop

theorem decode_add_iff :
    decode w = .ok (.add (field w 16 8) (field w 8 8) (field w 0 8)) ↔ field w 24 8 = 1 :=
  ⟨opcode_of_decode, fun h => by simp [decode, h]⟩

theorem decode_sub_iff :
    decode w = .ok (.sub (field w 16 8) (field w 8 8) (field w 0 8)) ↔ field w 24 8 = 2 :=
  ⟨opcode_of_decode, fun h => by simp [decode, h]⟩

theorem decode_load_iff : decode w = .ok (.load (field w 16 8) (field w 0 16)) ↔ field w 24 8 = 3 :=
  ⟨opcode_of_decode, fun h => by simp [decode, h]⟩

theorem decode_store_iff : decode w = .ok (.store (field w 0 16) (field w 16 8)) ↔ field w 24 8 = 4 :=
  ⟨opcode_of_decode, fun h => by simp [decode, h]⟩

theorem decode_jump_iff : decode w = .ok (.jump (field w 0 24)) ↔ field w 24 8 = 5 :=
  ⟨opcode_of_decode, fun h => by simp [decode, h]⟩

theorem decode_halt_iff : decode w = .ok .halt ↔ field w 24 8 = 6 ∧ field w 0 24 = 0 := by
  constructor
  · intro h
    have hop : field w 24 8 = 6 := opcode_of_decode h
    refine ⟨hop, ?_⟩
    by_contra hlow
    simp [decode, hop, hlow] at h
  · rintro ⟨hop, hlow⟩
    simp [decode, hop, hlow]

/-- The illegal words (R99). -/
theorem decode_error_iff : (∃ why, decode w = .error why) ↔
    field w 24 8 = 0 ∨ 7 ≤ field w 24 8 ∨ (field w 24 8 = 6 ∧ field w 0 24 ≠ 0) := by
  rcases decode_cases w with ⟨hop, hd⟩ | ⟨hop, hd⟩ | ⟨hop, hd⟩ | ⟨hop, hd⟩ | ⟨hop, hd⟩ | ⟨hop, hlow, hd⟩ |
    ⟨hop, hlow, hd⟩ | ⟨hop, hd⟩
  on_goal 8 => exact iff_of_true ⟨_, hd⟩ (hop.imp_right .inl)
  all_goals simp [*]

/-! ### Encoder and decoder are partial inverses (R102) -/

theorem encode_eq_some_iff : encode i = some w ↔ WellFormed i ∧ encodeWord i = w :=
  ⟨encode_eq_some, fun ⟨hwf, hw⟩ => hw ▸ encode_of_wellFormed hwf⟩

theorem encode_isSome_iff : (encode i).isSome = true ↔ WellFormed i := by
  simp [Option.isSome_iff_exists, encode_eq_some_iff]

/-- A word that `encode` answers carries the opcode of its instruction (the laws of `Encodable`). -/
theorem opcode_of_encode (h : encode i = some w) : field w 24 8 = Laws.Encodable.opcode i := by
  cases i with
  | add d s1 s2 => exact (Laws.Encodable.add d s1 s2).2 w h
  | sub d s1 s2 => exact (Laws.Encodable.sub d s1 s2).2 w h
  | load d a => exact (Laws.Encodable.load d a).2 w h
  | store a r => exact (Laws.Encodable.store a r).2 w h
  | jump t => exact (Laws.Encodable.jump t).2 w h
  | halt => exact Laws.Encodable.halt.2 w h

/-- Encoding what a word decodes to gives the word back: its fields fit, and the format puts them together. -/
theorem encode_of_decode (h : decode w = .ok i) : encode i = some w := by
  rw [encode_eq_some_iff]
  rcases decode_cases w with ⟨hop, hd⟩ | ⟨hop, hd⟩ | ⟨hop, hd⟩ | ⟨hop, hd⟩ | ⟨hop, hd⟩ | ⟨hop, hlow, hd⟩ |
    ⟨-, -, hd⟩ | ⟨-, hd⟩ <;> cases hd.symm.trans h
  · exact ⟨wellFormed_add.2 ⟨field8_le w 16, field8_le w 8, field8_le w 0⟩, formatR_fields hop⟩
  · exact ⟨wellFormed_sub.2 ⟨field8_le w 16, field8_le w 8, field8_le w 0⟩, formatR_fields hop⟩
  · exact ⟨wellFormed_load.2 ⟨field8_le w 16, field16_le w 0⟩, formatM_fields hop⟩
  · exact ⟨wellFormed_store.2 ⟨field8_le w 16, field16_le w 0⟩, formatM_fields hop⟩
  · exact ⟨wellFormed_jump.2 (field24_le w 0), formatJ_fields hop⟩
  · exact ⟨wellFormed_halt, formatZ_of_fields hop hlow⟩

/-- Decoding the word of an instruction gives the instruction back: the word carries its opcode, and its
fields fit. -/
theorem decode_of_encode (h : encode i = some w) : decode w = .ok i := by
  have hop := opcode_of_encode h
  obtain ⟨hwf, rfl⟩ := encode_eq_some h
  cases i with
  | add d s1 s2 =>
    obtain ⟨hd, h1, h2⟩ := wellFormed_add.1 hwf
    obtain ⟨ed, e1, e2⟩ := fields_formatR (op := 0x01#8) hd h1 h2
    simpa only [encodeWord, ed, e1, e2] using decode_add_iff.2 hop
  | sub d s1 s2 =>
    obtain ⟨hd, h1, h2⟩ := wellFormed_sub.1 hwf
    obtain ⟨ed, e1, e2⟩ := fields_formatR (op := 0x02#8) hd h1 h2
    simpa only [encodeWord, ed, e1, e2] using decode_sub_iff.2 hop
  | load d a =>
    obtain ⟨hd, ha⟩ := wellFormed_load.1 hwf
    obtain ⟨ed, ea⟩ := fields_formatM (op := 0x03#8) hd ha
    simpa only [encodeWord, ed, ea] using decode_load_iff.2 hop
  | store a r =>
    obtain ⟨hr, ha⟩ := wellFormed_store.1 hwf
    obtain ⟨er, ea⟩ := fields_formatM (op := 0x04#8) hr ha
    simpa only [encodeWord, er, ea] using decode_store_iff.2 hop
  | jump t =>
    have et := field_formatJ (op := 0x05#8) (wellFormed_jump.1 hwf)
    simpa only [encodeWord, et] using decode_jump_iff.2 hop
  | halt => exact decode_halt_iff.2 ⟨hop, field_formatZ⟩

/-- The decoder is injective on legal words: the word is the one that the encoder gives. -/
theorem eq_of_decode_eq {w' : InstrWord} (h : decode w = .ok i) (h' : decode w' = .ok i) : w = w' :=
  Option.some.inj ((encode_of_decode h).symm.trans (encode_of_decode h'))

theorem wellFormed_of_decode (h : decode w = .ok i) : WellFormed i := (encode_eq_some (encode_of_decode h)).1

end Decoder

/-! ### Masks and matches (R97) -/

section Masks
variable {w : InstrWord}

/-- The mask of formats R, M and J keeps the opcode byte and clears the rest. -/
theorem and_opcodeMask (w : InstrWord) : w &&& 0xFF000000#32 = formatZ (w.extractLsb' 24 8) := by
  have hw : w.extractLsb' 24 8 ++ w.extractLsb' 0 24 = w :=
    (BitVec.extractLsb'_append_extractLsb'_eq_extractLsb' (start₁ := 0) (len₁ := 24) rfl).trans
      BitVec.extractLsb'_eq_self
  have hmask : 0xFF000000#32 = BitVec.allOnes 8 ++ 0#24 := by decide
  calc w &&& 0xFF000000#32
      = (w.extractLsb' 24 8 ++ w.extractLsb' 0 24) &&& (BitVec.allOnes 8 ++ 0#24) := by rw [hw, ← hmask]
    _ = formatZ (w.extractLsb' 24 8) := by
        rw [BitVec.and_append, BitVec.and_allOnes, BitVec.and_zero, formatZ]

theorem and_opcodeMask_eq_iff (op : BitVec 8) : w &&& 0xFF000000#32 = formatZ op ↔ field w 24 8 = op.toNat := by
  rw [and_opcodeMask, ← BitVec.toNat_inj, formatZ_toNat, formatZ_toNat, field]
  omega

/-- The mask of format Z keeps the whole word, and only one word is `Halt`. -/
theorem and_fullMask_eq_iff : w &&& 0xFFFFFFFF#32 = 0x06000000#32 ↔ field w 24 8 = 6 ∧ field w 0 24 = 0 := by
  have hmask : 0xFFFFFFFF#32 = BitVec.allOnes 32 := by decide
  rw [hmask, BitVec.and_allOnes]
  constructor
  · rintro rfl
    decide
  · rintro ⟨hop, hlow⟩
    exact (formatZ_of_fields (op := 0x06#8) hop hlow).symm

/-- Every row's mask keeps the opcode byte, so a word that matches a row has the row's opcode. -/
theorem opcode_of_matches {row : InstrWord × InstrWord} (hrow : row ∈ opcodeRows) (h : w &&& row.1 = row.2) :
    field w 24 8 = field row.2 24 8 := by
  have hmask : ∀ row ∈ opcodeRows, row.1 &&& 0xFF000000#32 = 0xFF000000#32 := by
    simp [opcodeRows]
  have hbyte : w &&& 0xFF000000#32 = row.2 &&& 0xFF000000#32 := by
    rw [← h, BitVec.and_assoc, hmask row hrow]
  rw [and_opcodeMask row.2] at hbyte
  exact (and_opcodeMask_eq_iff _).1 hbyte

theorem opcodeRows_disjoint :
    opcodeRows.Pairwise fun row other => ∀ w : InstrWord, ¬ (w &&& row.1 = row.2 ∧ w &&& other.1 = other.2) := by
  have hops : (opcodeRows.map fun row => field row.2 24 8) = [1, 2, 3, 4, 5, 6] := rfl
  have hnodup : (opcodeRows.map fun row => field row.2 24 8).Nodup := by rw [hops]; decide
  refine (List.pairwise_map.1 hnodup).imp_of_mem fun hrow hother hne w ⟨hw, hw'⟩ => hne ?_
  rw [← opcode_of_matches hrow hw, opcode_of_matches hother hw']

end Masks

/-- Settles O2: a row's mask and match say which opcode byte the word has, on which the decoder decides. -/
theorem opcodeRowsByMaskAndMatch : Obligations.OpcodeRowsByMaskAndMatch := by
  refine ⟨fun w => ?_, opcodeRows_disjoint⟩
  have hadd : w &&& 0xFF000000#32 = 0x01000000#32 ↔ field w 24 8 = 1 := and_opcodeMask_eq_iff 0x01#8
  have hsub : w &&& 0xFF000000#32 = 0x02000000#32 ↔ field w 24 8 = 2 := and_opcodeMask_eq_iff 0x02#8
  have hload : w &&& 0xFF000000#32 = 0x03000000#32 ↔ field w 24 8 = 3 := and_opcodeMask_eq_iff 0x03#8
  have hstore : w &&& 0xFF000000#32 = 0x04000000#32 ↔ field w 24 8 = 4 := and_opcodeMask_eq_iff 0x04#8
  have hjump : w &&& 0xFF000000#32 = 0x05000000#32 ↔ field w 24 8 = 5 := and_opcodeMask_eq_iff 0x05#8
  have hlow (len : Nat) : w.toNat % 2 ^ len = field w 0 len := (field_zero w len).symm
  rw [← field_eq w 16 8, ← field_eq w 8 8, hlow 8, hlow 16, hlow 24]
  refine ⟨hadd.trans decode_add_iff.symm, hsub.trans decode_sub_iff.symm, hload.trans decode_load_iff.symm,
    hstore.trans decode_store_iff.symm, hjump.trans decode_jump_iff.symm,
    and_fullMask_eq_iff.trans decode_halt_iff.symm, ?_⟩
  rw [decode_error_iff]
  simp only [opcodeRows, List.forall_mem_cons, List.not_mem_nil, false_imp_iff, implies_true, and_true,
    ne_eq, hadd, hsub, hload, hstore, hjump, and_fullMask_eq_iff]
  omega

/-- Settles O4, by evaluating the decoder on each word. -/
theorem workedEncodingsDecode : Obligations.WorkedEncodingsDecode :=
  ⟨rfl, rfl, rfl, rfl, rfl, rfl, rfl, rfl, rfl, rfl⟩

end Sys2Proof

namespace Sys2Proof.Machine

/-! ### Fetching from a binary program (R123) -/

section Fetch
variable {s : State} {ws : List InstrWord} {w : InstrWord}

theorem fetch_of_illegal {why : IllegalWord} (hrun : s.run = .running) (hprog : s.program = .words ws)
    (hw : ws[s.pc]? = some w) (hdec : decode w = .error why) : fetch s = .illegal why := by
  simp [fetch_running hrun, hprog, programAt, hw, hdec]

theorem fetch_of_legal {i : Instr} (hrun : s.run = .running) (hprog : s.program = .words ws)
    (hw : ws[s.pc]? = some w) (hdec : decode w = .ok i) : fetch s = .instr i := by
  simp [fetch_running hrun, hprog, programAt, hw, hdec]

/-- What a binary program gives to execute is what one of its words decodes to. -/
theorem exists_word_of_fetch {i : Instr} (hprog : s.program = .words ws) (h : fetch s = .instr i) :
    ∃ w, ws[s.pc]? = some w ∧ decode w = .ok i := by
  obtain ⟨-, -, hat⟩ := fetch_instr h
  rw [hprog, programAt] at hat
  rcases hw : ws[s.pc]? with _ | w
  · simp [hw] at hat
  · rcases hdec : decode w with why | j
    · simp [hw, hdec] at hat
    · exact ⟨w, rfl, by simpa [hw, hdec] using hat⟩

theorem step_of_illegal {why : IllegalWord} (h : fetch s = .illegal why) : step s = .fault .illegalInstruction := by
  simp [step, h]

end Fetch

/-- Settles O3: the decoder's verdict by opcode byte, and the step on the verdict illegal. -/
theorem illegalWordsFaultWhenExecuted : Obligations.IllegalWordsFaultWhenExecuted := by
  refine ⟨fun w => ?_, fun s ws w why hrun hprog hw hdec => step_of_illegal (fetch_of_illegal hrun hprog hw hdec)⟩
  rw [← field_opcode, ← field_zero, decode_error_iff]

/-! ### What a binary program can name, and falling through (R102) -/

theorem accessAddr_lt_of_wellFormed {i : Instr} {a : Nat} (h : WellFormed i) (ha : accessAddr i = some a) :
    a < 65536 := by
  cases i with
  | load d b => cases ha; exact Nat.lt_succ_of_le (wellFormed_load.1 h).2
  | store b r => cases ha; exact Nat.lt_succ_of_le (wellFormed_store.1 h).2
  | add d s1 s2 => cases ha
  | sub d s1 s2 => cases ha
  | jump t => cases ha
  | halt => cases ha

/-- A machine before word `n` of a binary program of `n + 2` words `Add(0, 0, 0)`. -/
def fallingThrough (n : Nat) : State :=
  (State.resetWith
    { memLen := 0, capacity := 0, program := .words (List.replicate (n + 2) 0x01000000#32) }).jumpTo n

theorem fetch_fallingThrough (n : Nat) : fetch (fallingThrough n) = .instr (.add 0 0 0) :=
  have hword : (List.replicate (n + 2) 0x01000000#32)[n]? = some 0x01000000#32 :=
    List.getElem?_replicate_of_lt (Nat.lt_add_of_pos_right Nat.two_pos)
  fetch_of_legal rfl rfl hword rfl

/-- Its step falls through to word `n + 1`, which exists. -/
theorem step_fallingThrough (n : Nat) :
    ∃ t, step (fallingThrough n) = .next t ∧ t.pc = n + 1 ∧ t.pc < t.N := by
  have hadd := registerOp_ok (op := addResult) (d := 0) (s1 := 0) (s2 := 0) (s := fallingThrough n)
    (by decide) (by decide) (by decide)
  refine ⟨_, (step_of_instr (fetch_fallingThrough n)).trans (congrArg retire hadd), rfl, ?_⟩
  show n + 1 < (List.replicate (n + 2) 0x01000000#32).length
  simp

/-- Settles O1: by the two round trips; a word's fields bound what a fetched instruction can name. -/
theorem encoderIsPartialInverseOfDecoder : Obligations.EncoderIsPartialInverseOfDecoder := by
  refine ⟨fun d s1 s2 hd h1 h2 => encode_of_wellFormed (wellFormed_add.2 ⟨hd, h1, h2⟩),
    fun d s1 s2 hd h1 h2 => encode_of_wellFormed (wellFormed_sub.2 ⟨hd, h1, h2⟩),
    fun d a hd ha => encode_of_wellFormed (wellFormed_load.2 ⟨hd, ha⟩),
    fun a r hr ha => encode_of_wellFormed (wellFormed_store.2 ⟨hr, ha⟩),
    fun t ht => encode_of_wellFormed (wellFormed_jump.2 ht), encode_of_wellFormed wellFormed_halt,
    fun i => encode_isSome_iff, fun i w => decode_of_encode, fun i w => encode_of_decode,
    fun i w w' => eq_of_decode_eq, ?_, ?_⟩
  · intro s ws i hprog hfetch
    obtain ⟨w, -, hdec⟩ := exists_word_of_fetch hprog hfetch
    have hwf := wellFormed_of_decode hdec
    refine ⟨fun a ha => accessAddr_lt_of_wellFormed hwf ha, ?_⟩
    rintro t rfl
    exact Nat.lt_succ_of_le (wellFormed_jump.1 hwf)
  · intro n
    obtain ⟨t, hstep, hpc, hlt⟩ := step_fallingThrough n
    exact ⟨fallingThrough n, t, _, rfl, rfl, hstep, hpc, hlt⟩

end Sys2Proof.Machine
end

section
/-! SUPPORT. Family 40_fetch_execute.md: the outcomes of a step (R127), the pc (R126) and the frame of each
instruction (R125), the stopped machine (R121), and the course and the end of a run (R130, R131). -/

namespace Sys2Proof.Machine

/-! ### Control flow does not depend on data (R130) -/

section Agree
variable {s t : State} (h : AgreeOnControl s t)
include h

/-- `Add`, `Sub`, `Load` and `Store` end so, whatever they wrote to registers, Memory and the cache. -/
theorem AgreeOnControl.advance : AgreeOnControl s.advance t.advance := by
  obtain ⟨hmemLen, hprogram, hpc, hrun, hreport⟩ := h
  exact ⟨hmemLen, hprogram, congrArg (· + 1) hpc, hrun, hreport⟩

theorem AgreeOnControl.jumpTo (k : Nat) : AgreeOnControl (s.jumpTo k) (t.jumpTo k) := by
  obtain ⟨hmemLen, hprogram, -, hrun, hreport⟩ := h
  exact ⟨hmemLen, hprogram, rfl, hrun, hreport⟩

theorem AgreeOnControl.halt : AgreeOnControl s.halt t.halt := by
  obtain ⟨hmemLen, hprogram, hpc, -, hreport⟩ := h
  exact ⟨hmemLen, hprogram, hpc, rfl, hreport⟩

theorem AgreeOnControl.setLastFault (k : Option Fault) :
    AgreeOnControl (s.setLastFault k) (t.setLastFault k) := by
  obtain ⟨hmemLen, hprogram, hpc, hrun, -⟩ := h
  exact ⟨hmemLen, hprogram, hpc, hrun, rfl⟩

theorem AgreeOnControl.fetch_eq : fetch t = fetch s := by
  obtain ⟨-, hprogram, hpc, hrun, -⟩ := h
  simp only [fetch, hprogram, hpc, hrun]

theorem AgreeOnControl.N_eq : t.N = s.N := by
  obtain ⟨-, hprogram, -⟩ := h
  rw [State.N, hprogram, State.N]

theorem AgreeOnControl.stopReason_eq : t.stopReason = s.stopReason := by
  have hN := h.N_eq
  obtain ⟨-, -, hpc, hrun, hreport⟩ := h
  simp only [State.stopReason, hN, hpc, hrun, hreport]

/-- The outcome of an instruction is decided by its own fields, `MEMLEN` and `N`: registers, Memory and cache
decide only what it writes. -/
theorem exec_agreeOnControl (hs : StateInv s) (ht : StateInv t) (i : Instr) :
    OutcomesRelated AgreeOnControl (exec i s) (exec i t) := by
  have hmemLen : t.memLen = s.memLen := h.1
  cases i with
  | add d s1 s2 => exact .andThen _ fun _ => .next h.advance
  | sub d s1 s2 => exact .andThen _ fun _ => .next h.advance
  | load d a =>
    refine .andThen _ fun _ => ?_
    rcases Nat.lt_or_ge a s.memLen with ha | ha
    · obtain ⟨c, hc, -⟩ := cacheLoad_ok hs.cacheInv ha
      obtain ⟨c', hc', -⟩ := cacheLoad_ok ht.cacheInv (hmemLen ▸ ha)
      rw [hc, hc']
      exact .next h.advance
    · rw [cacheLoad_outOfBounds hs.cacheInv ha, cacheLoad_outOfBounds ht.cacheInv (hmemLen ▸ ha)]
      exact .fault .outOfBounds
  | store a r =>
    refine .andThen _ fun _ => ?_
    rcases Nat.lt_or_ge a s.memLen with ha | ha
    · obtain ⟨c, hc, -⟩ := cacheStore_ok (s.reg r) hs.memWf hs.cacheInv ha
      obtain ⟨c', hc', -⟩ := cacheStore_ok (t.reg r) ht.memWf ht.cacheInv (hmemLen ▸ ha)
      rw [hc, hc']
      exact .next h.advance
    · rw [cacheStore_outOfBounds _ ha, cacheStore_outOfBounds _ (hmemLen ▸ ha)]
      exact .fault .outOfBounds
  | jump k =>
    have htarget : checkTarget k t = checkTarget k s := by simp only [checkTarget, h.N_eq]
    show OutcomesRelated _ (execJump k s) (execJump k t)
    rw [execJump, execJump, htarget]
    exact .andThen _ fun _ => .next (h.jumpTo k)
  | halt => exact .next h.halt

end Agree

theorem lockstep_agreeOnControl : Lockstep AgreeOnControl where
  fetch_eq h := h.fetch_eq
  stopReason_eq h := h.stopReason_eq
  setLastFault h k := h.setLastFault k
  exec_related hs ht h i := exec_agreeOnControl h hs ht i

/-- Settles O38: machines that agree on control go in lockstep. -/
theorem controlFlowIgnoresData : Obligations.ControlFlowIgnoresData :=
  fun _ _ hs ht h n => lockstep_agreeOnControl.runFor_related hs ht h n

/-! ### A run ends within `N` turns or never (R130) -/

section Course
variable {s : State} {m n : Nat}

theorem runFor_N (s : State) (n : Nat) : (s.runFor n).N = s.N := by
  obtain ⟨-, hprogram, -⟩ := runFor_sameParams s n
  rw [State.N, hprogram, State.N]

theorem pc_lt_of_live (hlive : (s.runFor n).stopReason = none) : (s.runFor n).pc < s.N := by
  obtain ⟨-, hpc, -⟩ := stopReason_none.1 hlive
  rwa [runFor_N] at hpc

/-- Live states of one run differ, as far as control goes, in the pc only. -/
theorem agreeOnControl_of_live (hm : (s.runFor m).stopReason = none) (hn : (s.runFor n).stopReason = none)
    (hpc : (s.runFor m).pc = (s.runFor n).pc) : AgreeOnControl (s.runFor m) (s.runFor n) := by
  obtain ⟨hmemLen, hprogram, -⟩ := runFor_sameParams s m
  obtain ⟨hmemLen', hprogram', -⟩ := runFor_sameParams s n
  obtain ⟨hrun, -, hreport⟩ := stopReason_none.1 hm
  obtain ⟨hrun', -, hreport'⟩ := stopReason_none.1 hn
  exact ⟨hmemLen'.trans hmemLen.symm, hprogram'.trans hprogram.symm, hpc.symm, hrun'.trans hrun.symm,
    hreport'.trans hreport.symm⟩

/-- A run that stands at one index twice goes round for ever: from the second visit on it repeats what it did
from the first. -/
theorem live_of_repeated_pc (hs : StateInv s) (hlt : m < n) (hlive : (s.runFor n).stopReason = none)
    (hpc : (s.runFor m).pc = (s.runFor n).pc) (k : Nat) : (s.runFor k).stopReason = none := by
  have hagree := agreeOnControl_of_live (live_of_le hlt.le hlive) hlive hpc
  induction k using Nat.strong_induction_on with
  | _ k ih =>
    rcases Nat.le_total k n with hk | hk
    · exact live_of_le hk hlive
    · obtain ⟨j, rfl⟩ := Nat.exists_eq_add_of_le hk
      have hround : AgreeOnControl ((s.runFor m).runFor j) ((s.runFor n).runFor j) :=
        lockstep_agreeOnControl.runFor_related (runFor_stateInv hs m) (runFor_stateInv hs n) hagree j
      rw [runFor_add, hround.stopReason_eq, ← runFor_add]
      exact ih (m + j) (Nat.add_lt_add_right hlt j)

/-- A run still live after `N` turns has stood at `N + 1` indices below `N`, so at one of them twice. -/
theorem exists_repeated_pc (hlive : (s.runFor s.N).stopReason = none) :
    ∃ m n, m < n ∧ (s.runFor n).stopReason = none ∧ (s.runFor m).pc = (s.runFor n).pc := by
  have hlives {k : Nat} (hk : k ∈ Finset.range (s.N + 1)) : (s.runFor k).stopReason = none :=
    live_of_le (Finset.mem_range_succ_iff.1 hk) hlive
  obtain ⟨m, hm, n, hn, hne, hpc⟩ := Finset.exists_ne_map_eq_of_card_lt_of_maps_to
    (s := Finset.range (s.N + 1)) (t := Finset.range s.N) (f := fun k => (s.runFor k).pc) (by simp)
    fun k hk => Finset.mem_coe.2 (Finset.mem_range.2 (pc_lt_of_live (hlives hk)))
  rcases Nat.lt_or_gt_of_ne hne with h | h
  · exact ⟨m, n, h, hlives hn, hpc⟩
  · exact ⟨n, m, h, hlives hm, hpc.symm⟩

/-- The run never stands at the same index twice while it goes on (R130). -/
def StandsNowhereTwice (s : State) : Prop :=
  ∀ m n, m < n → (s.runFor n).stopReason = none → (s.runFor m).pc ≠ (s.runFor n).pc

theorem standsNowhereTwice_of_ends (hs : StateInv s) (h : Ends s) : StandsNowhereTwice s := by
  intro m n hlt hlive hpc
  obtain ⟨k, hk⟩ := h
  exact hk (live_of_repeated_pc hs hlt hlive hpc k)

theorem ended_after_N_of_standsNowhereTwice (h : StandsNowhereTwice s) : (s.runFor s.N).stopReason ≠ none := by
  intro hlive
  obtain ⟨m, n, hlt, hn, hpc⟩ := exists_repeated_pc hlive
  exact h m n hlt hn hpc

end Course

/-- Settles O39: ending, standing nowhere twice and having ended after `N` turns imply one another in a
round. -/
theorem runsEndWithinProgramLengthOrNever : Obligations.RunsEndWithinProgramLengthOrNever := fun s hs =>
  have hnowhere (h : Ends s) : StandsNowhereTwice s := standsNowhereTwice_of_ends hs h
  have hended (h : StandsNowhereTwice s) := ended_after_N_of_standsNowhereTwice h
  ⟨⟨fun h => hended (hnowhere h), fun h => ⟨s.N, h⟩⟩, hnowhere, fun h => ⟨s.N, hended h⟩⟩

/-! ### The outcomes of a step (R127) -/

theorem andThen_ne_refused {α β : Type} {r : Result α} {f : α → Result β} (hr : ∀ q, r ≠ .refused q)
    (hf : ∀ a q, r = .next a → f a ≠ .refused q) (q : Refusal) : andThen r f ≠ .refused q := by
  intro h
  rcases andThen_eq_refused.1 h with h | ⟨a, ha, h⟩
  · exact hr q h
  · exact hf a q ha h

theorem next_ne_refused {α : Type} (a : α) (q : Refusal) : (.next a : Result α) ≠ .refused q := nofun

theorem checkRegisters_ne_refused (is : List Nat) (q : Refusal) : checkRegisters is ≠ .refused q := by
  unfold checkRegisters
  split <;> simp

theorem checkTarget_ne_refused (t : Nat) (s : State) (q : Refusal) : checkTarget t s ≠ .refused q := by
  unfold checkTarget
  split <;> simp

section Outcome
variable {s : State} (h : StateInv s)
include h

/-- Under the invariant the recency order of a full cache names a slot to evict. -/
theorem cacheLoad_ne_refused (a : Nat) (q : Refusal) : cacheLoad a s ≠ .refused q := by
  rcases Nat.lt_or_ge a s.memLen with ha | ha
  · obtain ⟨c, hc, -⟩ := cacheLoad_ok h.cacheInv ha
    simp [hc]
  · simp [cacheLoad_outOfBounds h.cacheInv ha]

theorem cacheStore_ne_refused (a : Nat) (v : Word) (q : Refusal) : cacheStore a v s ≠ .refused q := by
  rcases Nat.lt_or_ge a s.memLen with ha | ha
  · obtain ⟨c, hc, -⟩ := cacheStore_ok v h.memWf h.cacheInv ha
    simp [hc]
  · simp [cacheStore_outOfBounds v ha]

theorem exec_ne_refused (i : Instr) (q : Refusal) : exec i s ≠ .refused q := by
  cases i with
  | add d s1 s2 => exact andThen_ne_refused (checkRegisters_ne_refused _) (fun _ q _ => next_ne_refused _ q) q
  | sub d s1 s2 => exact andThen_ne_refused (checkRegisters_ne_refused _) (fun _ q _ => next_ne_refused _ q) q
  | load d a =>
    exact andThen_ne_refused (checkRegisters_ne_refused _)
      (fun _ q _ => andThen_ne_refused (cacheLoad_ne_refused h a) (fun _ q _ => next_ne_refused _ q) q) q
  | store a r =>
    exact andThen_ne_refused (checkRegisters_ne_refused _)
      (fun _ q _ => andThen_ne_refused (cacheStore_ne_refused h a _) (fun _ q _ => next_ne_refused _ q) q) q
  | jump k => exact andThen_ne_refused (checkTarget_ne_refused k s) (fun _ q _ => next_ne_refused _ q) q
  | halt => exact next_ne_refused _ q

theorem step_ne_refused (q : Refusal) : step s ≠ .refused q := by
  intro hstep
  obtain ⟨i, -, hexec⟩ := step_refused hstep
  exact exec_ne_refused h i q hexec

end Outcome

/-- Settles O8: the only refusal is the cache's, and the invariant rules it out. -/
theorem stepIsNextOrFault : Obligations.StepIsNextOrFault := by
  intro s h
  cases hstep : step s with
  | next t => exact .inl ⟨t, rfl⟩
  | fault k => exact .inr ⟨k, rfl⟩
  | refused q => exact absurd hstep (step_ne_refused h q)

/-! ### The pc and the frame of each instruction (R125, R126) -/

/-- `Add` and `Sub` differ in the result they write only. -/
theorem exec_addSub_next {d s1 s2 : Nat} {s t : State}
    (h : exec (.add d s1 s2) s = .next t ∨ exec (.sub d s1 s2) s = .next t) :
    ∃ v, t = (s.setReg d v).advance := by
  rcases h with h | h
  · exact ⟨_, (registerOp_next h).2⟩
  · exact ⟨_, (registerOp_next h).2⟩

/-- The turn of a faulting step records the fault, or is no turn since a fault was on record already. -/
theorem request_of_fault {s : State} {k : Fault} (h : step s = .fault k) :
    s.request = s ∨ s.request = s.setLastFault (some k) := by
  by_cases hlive : s.stopReason = none
  · exact .inr (by rw [request_of_live hlive, h]; rfl)
  · exact .inl (request_of_ended hlive)

/-- Settles O31: read off what each meaning answers when it completes. -/
theorem programCounterUpdate : Obligations.ProgramCounterUpdate := by
  intro s t
  refine ⟨fun d s1 s2 h => ?_, fun d a h => ?_, fun a r h => ?_, fun k h => ?_, fun h => ?_, fun k h => ?_⟩
  · obtain ⟨v, rfl⟩ := exec_addSub_next h; rfl
  · obtain ⟨-, v, c, -, -, rfl⟩ := execLoad_next h; rfl
  · obtain ⟨-, -, c, -, rfl⟩ := execStore_next h; rfl
  · obtain ⟨-, rfl⟩ := execJump_next h; rfl
  · obtain rfl := execHalt_next h; rfl
  · rcases request_of_fault h with hreq | hreq <;> rw [hreq]
    rfl

/-- Settles O32: read off what each meaning answers when it completes; other registers and other cells by the
write rules of registers and of Memory. -/
theorem frameOfEveryInstruction : Obligations.FrameOfEveryInstruction := by
  intro s t
  refine ⟨fun d s1 s2 h => ?_, fun d a h => ?_, fun a r h => ?_, fun k h => ?_, fun h => ?_⟩
  · obtain ⟨v, rfl⟩ := exec_addSub_next h
    exact ⟨fun r hr => State.reg_setReg_other s d r v hr, fun _ => rfl, rfl, rfl, rfl, rfl, rfl, rfl⟩
  · obtain ⟨-, v, c, -, hlen, rfl⟩ := execLoad_next h
    exact ⟨fun r hr => State.reg_setReg_other (s.setCache c) d r v hr, fun _ => rfl, rfl, rfl, rfl, rfl, hlen⟩
  · obtain ⟨-, -, c, hlen, rfl⟩ := execStore_next h
    exact ⟨fun _ => rfl, fun b hb => Memory.read_write_other s.mem _ hb, rfl, rfl, rfl, rfl, hlen⟩
  · obtain ⟨-, rfl⟩ := execJump_next h
    exact ⟨fun _ => rfl, fun _ => rfl, rfl, rfl, rfl, rfl, rfl, rfl⟩
  · obtain rfl := execHalt_next h
    exact ⟨fun _ => rfl, fun _ => rfl, rfl, rfl, rfl, rfl, rfl, rfl⟩

/-! ### Machines that no turn changes (R121, R130) -/

/-- A stopped machine is one that issues no step (R128). -/
theorem stopReason_ne_none_of_stopped {s : State} (h : s.stopped) : s.stopReason ≠ none := by
  intro hlive
  obtain ⟨hrun, hpc, -⟩ := stopReason_none.1 hlive
  rcases h with hhalt | hend
  · simp [hrun] at hhalt
  · exact absurd hpc (Nat.not_lt.2 hend)

/-- Settles O35: a stopped machine fetches nothing, and the loop issues it no step. -/
theorem stoppedMachineNeverChanges : Obligations.StoppedMachineNeverChanges := by
  refine ⟨fun s h => ⟨step_of_stopped h, runFor_of_ended (stopReason_ne_none_of_stopped h)⟩,
    fun s => fetch_idle, fun p hlen => .inr ?_⟩
  show p.program.length ≤ 0
  exact hlen.le

theorem runFor_of_request_eq {s : State} (h : s.request = s) (n : Nat) : s.runFor n = s := by
  induction n with
  | zero => rfl
  | succ n ih => rw [runFor_succ, ih, h]

/-- A jump to its own index is in range, since `pc` is, and writes to `pc` what stands there. -/
theorem step_of_jump_to_self {s : State} (h : fetch s = .instr (.jump s.pc)) (hreport : s.lastFault = none) :
    step s = .next s := by
  obtain ⟨-, hpc, -⟩ := fetch_instr h
  have hexec : exec (.jump s.pc) s = .next s := by simp [exec, execJump, checkTarget, hpc, State.jumpTo]
  rw [step_of_instr h, hexec]
  simp [retire, State.setLastFault, ← hreport]

/-- Settles O40: the machine is live, and its step leads back to the same state. -/
theorem jumpToSelfNeverEnds : Obligations.JumpToSelfNeverEnds := by
  intro s h hreport n
  obtain ⟨hrun, hpc, -⟩ := fetch_instr h
  have hlive : s.stopReason = none := stopReason_none.2 ⟨hrun, hpc, hreport⟩
  have hrequest : s.request = s := by rw [request_of_live hlive, step_of_jump_to_self h hreport]; rfl
  rw [runFor_of_request_eq hrequest]
  exact ⟨rfl, hlive⟩

/-! ### The state at the end of a run (R131) -/

/-- No meaning reads the fault report before it faults. -/
theorem exec_fault_setLastFault {i : Instr} {s : State} {k : Fault} (r : Option Fault) (h : exec i s = .fault k) :
    exec i (s.setLastFault r) = .fault k := by
  cases i with
  | add d s1 s2 => exact registerOp_fault.2 (registerOp_fault (s := s).1 h)
  | sub d s1 s2 => exact registerOp_fault.2 (registerOp_fault (s := s).1 h)
  | load d a => exact execLoad_fault.2 (execLoad_fault (s := s).1 h)
  | store a q => exact execStore_fault.2 (execStore_fault (s := s).1 h)
  | jump t => exact execJump_fault.2 (execJump_fault (s := s).1 h)
  | halt => cases h

theorem step_fault_setLastFault {s : State} {k : Fault} (r : Option Fault) (h : step s = .fault k) :
    step (s.setLastFault r) = .fault k := by
  rcases step_fault h with ⟨why, hfetch, rfl⟩ | ⟨i, hfetch, hexec⟩
  · exact step_of_illegal (s := s.setLastFault r) hfetch
  · rw [step_of_instr (s := s.setLastFault r) hfetch, exec_fault_setLastFault r hexec]
    rfl

/-- What stands at `pc` accounts for a halt and for a reported fault. -/
structure EndExplained (s : State) : Prop where
  haltAtPc : s.run = .halted → programAt s.program s.pc = .instr .halt
  faultAtPc : ∀ k, s.lastFault = some k → step s = .fault k

theorem endExplained_of_running {s : State} (hrun : s.run = .running) (hreport : s.lastFault = none) :
    EndExplained s where
  haltAtPc hhalt := by simp [hrun] at hhalt
  faultAtPc k hk := by simp [hreport] at hk

/-- A step of a running machine that completes leaves no report, and a halted machine only where it ran `Halt`,
which leaves `pc`. -/
theorem step_endExplained {s t : State} (hrun : s.run = .running) (hpc : s.pc < s.N) (h : step s = .next t) :
    EndExplained t := by
  by_cases hhalt : fetch s = .instr .halt
  · obtain ⟨-, -, hat⟩ := fetch_instr hhalt
    cases (step_of_halt hhalt).symm.trans h
    exact ⟨fun _ => hat, nofun⟩
  · rcases step_next h with ⟨hhalted | hend, -⟩ | ⟨i, u, -, -, rfl⟩
    · simp [hrun] at hhalted
    · exact absurd hpc (Nat.not_lt.2 hend)
    · exact endExplained_of_running ((step_run h hhalt).trans hrun) rfl

theorem request_endExplained {s : State} (hs : StateInv s) (h : EndExplained s) : EndExplained s.request := by
  by_cases hlive : s.stopReason = none
  · obtain ⟨hrun, hpc, -⟩ := stopReason_none.1 hlive
    rw [request_of_live hlive]
    cases hstep : step s with
    | next t => exact step_endExplained hrun hpc hstep
    | fault k =>
      refine ⟨h.haltAtPc, fun k' hk => ?_⟩
      cases hk
      exact step_fault_setLastFault _ hstep
    | refused q => exact absurd hstep (step_ne_refused hs q)
  · rwa [request_of_ended hlive]

theorem runFor_endExplained {s : State} (hs : StateInv s) (h : EndExplained s) (n : Nat) :
    EndExplained (s.runFor n) := by
  induction n with
  | zero => exact h
  | succ n ih => rw [runFor_succ]; exact request_endExplained (runFor_stateInv hs n) ih

/-- Settles O41: the run keeps the invariant and explains its end; each reason of stopping says which part
applies. -/
theorem stateAtTheEndOfARun : Obligations.StateAtTheEndOfARun := by
  intro s n hs hrun hreport
  have hinv := runFor_stateInv hs n
  have hend := runFor_endExplained hs (endExplained_of_running hrun hreport) n
  refine ⟨fun hstop => ?_, fun hstop => ?_, fun k hstop => ?_⟩
  · have hhalted := stopReason_halted.1 hstop
    exact ⟨hhalted, hend.haltAtPc hhalted⟩
  · obtain ⟨hrunning, hpc⟩ := stopReason_exhausted.1 hstop
    exact ⟨hrunning, hinv.pcInRange.antisymm hpc⟩
  · obtain ⟨hrunning, hpc, hfault⟩ := stopReason_faulted.1 hstop
    exact ⟨hrunning, hpc, hend.faultAtPc k hfault⟩

/-! ### The instruction at `pc` (R120 to R123) -/

theorem fetch_of_instrs {s : State} {is : List Instr} {i : Instr} (hrun : s.run = .running)
    (hprog : s.program = .instrs is) (hi : is[s.pc]? = some i) : fetch s = .instr i := by
  simp [fetch_running hrun, hprog, programAt, hi]

/-- Settles O33: at either level of description the fetch finds `i`, and a step is its meaning. -/
theorem stepRunsTheInstructionAtPc : Obligations.StepRunsTheInstructionAtPc :=
  ⟨fun _ _ _ _ hrun hprog hw hdec => step_of_instr (fetch_of_legal hrun hprog hw hdec),
    fun _ _ _ hrun hprog hi => step_of_instr (fetch_of_instrs hrun hprog hi), fun _ => rfl, fun _ => rfl⟩

end Sys2Proof.Machine
end

section
/-! SUPPORT. Family 41_arithmetic.md: the words of `Add` and `Sub`, what they write, leave unchanged and raise
(R141, R142), and their results read as signed numbers (R140). -/

namespace Sys2Proof.Machine

/-! ### The shape that `Add` and `Sub` share (R141, R142) -/

section RegisterOp
variable {op : Word → Word → Word} {d s1 s2 : Nat} {s t : State}

/-- The destination holds the result of the sources as they were, also when it is one of them. -/
theorem registerOp_reg_destination (h : registerOp op d s1 s2 s = .next t) :
    t.reg d = op (s.reg s1) (s.reg s2) := by
  obtain ⟨⟨hd, -, -⟩, rfl⟩ := registerOp_next h
  exact State.reg_setReg_same s d _ hd

/-- Good indices: the operation completes and writes `x[d]` and `pc` only. -/
theorem registerOp_completes (op : Word → Word → Word) (s : State) (hd : d < 32) (h1 : s1 < 32) (h2 : s2 < 32) :
    ∃ t, registerOp op d s1 s2 s = .next t ∧ t.reg d = op (s.reg s1) (s.reg s2) ∧ t.pc = s.pc + 1 ∧
      (∀ r, r ≠ d → t.reg r = s.reg r) ∧ t.mem = s.mem ∧ t.cache = s.cache ∧ SameSystem s t :=
  have hok := registerOp_ok hd h1 h2
  ⟨_, hok, registerOp_reg_destination hok, rfl, fun r hr => State.reg_setReg_other s d r _ hr, rfl, rfl,
    rfl, rfl, rfl, rfl, rfl⟩

end RegisterOp

/-- Settles O14: `Add` is the shared shape with the sum modulo `2^XLEN`. -/
theorem addWritesWrappedSum : Obligations.AddWritesWrappedSum := by
  refine ⟨fun d s1 s2 hd h1 h2 => ?_, fun d s1 s2 s hd h1 h2 => ?_,
    fun d s1 s2 s hbad => registerOp_fault.2 ⟨rfl, hbad⟩⟩
  · exact encode_of_wellFormed (by simp [WellFormed, wellFormed, hd, h1, h2])
  · obtain ⟨t, hexec, hresult, hframe⟩ := registerOp_completes addResult s hd h1 h2
    exact ⟨t, hexec, by rw [hresult, addResult_toNat], hframe⟩

/-- Settles O15: `Sub` is the shared shape with the difference modulo `2^XLEN`, first source minus second. -/
theorem subWritesWrappedDifference : Obligations.SubWritesWrappedDifference := by
  refine ⟨fun d s1 s2 hd h1 h2 => ?_, fun d s1 s2 s hd h1 h2 => ?_,
    fun d s1 s2 s hbad => registerOp_fault.2 ⟨rfl, hbad⟩⟩
  · exact encode_of_wellFormed (by simp [WellFormed, wellFormed, hd, h1, h2])
  · obtain ⟨t, hexec, hresult, hframe⟩ := registerOp_completes subResult s hd h1 h2
    exact ⟨t, hexec, by rw [hresult, subResult_toNat], hframe⟩

/-! ### Signed reading (R140, D2, D3) -/

/-- `r` is the integer `n` as a word reads it in two's complement: `n` itself when it fits `XLEN` bits, else `n`
moved by `2^XLEN` against the overflow. -/
def WrapsSigned (n r : Int) : Prop :=
  (-2 ^ (Config.XLEN - 1) ≤ n → n < 2 ^ (Config.XLEN - 1) → r = n) ∧
  (2 ^ (Config.XLEN - 1) ≤ n → r = n - 2 ^ Config.XLEN) ∧
  (n < -2 ^ (Config.XLEN - 1) → r = n + 2 ^ Config.XLEN)

/-- The balanced remainder wraps an integer that is off by less than one turn: it takes the same value at `n` and
at `n ± 2^XLEN`, and is the identity on the signed range. -/
theorem wrapsSigned_bmod {n : Int} (hlo : -2 ^ Config.XLEN ≤ n) (hhi : n < 2 ^ Config.XLEN) :
    WrapsSigned n (n.bmod (2 ^ Config.XLEN)) := by
  have hhalf : (2 : Int) ^ Config.XLEN = 2 * 2 ^ (Config.XLEN - 1) := by exact_mod_cast two_pow_XLEN
  have hcast : ((2 ^ Config.XLEN : Nat) : Int) = 2 ^ Config.XLEN := Nat.cast_pow 2 _
  unfold WrapsSigned
  generalize 2 ^ Config.XLEN = m at hcast ⊢
  generalize (2 : Int) ^ Config.XLEN = k at *
  generalize (2 : Int) ^ (Config.XLEN - 1) = half at *
  subst hcast
  refine ⟨fun _ _ => ?_, fun _ => ?_, fun _ => ?_⟩
  · exact Int.bmod_eq_of_le_mul_two (by omega) (by omega)
  · rw [← Int.sub_bmod_right]
    exact Int.bmod_eq_of_le_mul_two (by omega) (by omega)
  · rw [← Int.add_bmod_right]
    exact Int.bmod_eq_of_le_mul_two (by omega) (by omega)

theorem addResult_wrapsSigned (p q : Word) : WrapsSigned (p.toInt + q.toInt) (addResult p q).toInt := by
  have hp := p.le_two_mul_toInt
  have hp' := p.two_mul_toInt_lt
  have hq := q.le_two_mul_toInt
  have hq' := q.two_mul_toInt_lt
  rw [addResult, BitVec.toInt_add]
  exact wrapsSigned_bmod (by omega) (by omega)

theorem subResult_wrapsSigned (p q : Word) : WrapsSigned (p.toInt - q.toInt) (subResult p q).toInt := by
  have hp := p.le_two_mul_toInt
  have hp' := p.two_mul_toInt_lt
  have hq := q.le_two_mul_toInt
  have hq' := q.two_mul_toInt_lt
  rw [subResult, BitVec.toInt_sub]
  exact wrapsSigned_bmod (by omega) (by omega)

/-- Settles O16: a result is a wrapped sum or difference, and two's complement reads it as the balanced remainder. -/
theorem signedReadingOfResults : Obligations.SignedReadingOfResults := by
  refine ⟨fun d s1 s2 s t h => ?_, fun d s1 s2 s t h => ?_⟩
  · rw [registerOp_reg_destination h]
    exact addResult_wrapsSigned (s.reg s1) (s.reg s2)
  · rw [registerOp_reg_destination h]
    exact subResult_wrapsSigned (s.reg s1) (s.reg s2)

end Sys2Proof.Machine
end

section
/-! SUPPORT. Family 42_load_store.md: the words of `Load` and `Store`, what they read, write, leave unchanged and
raise (R152, R153), and that a stored value is loaded back (R154). -/

namespace Sys2Proof.Machine

/-! ### A cell holds its value until the next store to it (R154) -/

/-- An instruction that does not store to `a` leaves cell `a` as it was, in any state. -/
theorem exec_cell_of_not_storesTo {i : Instr} {a : Nat} {s t : State} (h : exec i s = .next t)
    (hi : storesTo a i = false) : t.cell a = s.cell a := by
  cases i with
  | add d s1 s2 => obtain ⟨-, rfl⟩ := registerOp_next h; rfl
  | sub d s1 s2 => obtain ⟨-, rfl⟩ := registerOp_next h; rfl
  | load d b => obtain ⟨-, v, c, -, -, rfl⟩ := execLoad_next h; rfl
  | store b r =>
    obtain ⟨-, -, c, -, rfl⟩ := execStore_next h
    have hne : b ≠ a := of_decide_eq_false hi
    exact Memory.read_write_other s.mem _ hne.symm
  | jump k => obtain ⟨-, rfl⟩ := execJump_next h; rfl
  | halt => obtain rfl := execHalt_next h; rfl

/-- Every instruction that completes keeps the invariants of Memory and the cache, from any pc. -/
theorem exec_memoryInv {i : Instr} {s t : State} (hs : MemoryInv s) (h : exec i s = .next t) : MemoryInv t := by
  cases i with
  | add d s1 s2 => obtain ⟨-, rfl⟩ := registerOp_next h; exact ⟨hs.memWf, hs.cacheInv⟩
  | sub d s1 s2 => obtain ⟨-, rfl⟩ := registerOp_next h; exact ⟨hs.memWf, hs.cacheInv⟩
  | load d a => exact (exec_access_recency hs h rfl).1
  | store a r => exact (exec_access_recency hs h rfl).1
  | jump k => obtain ⟨-, rfl⟩ := execJump_next h; exact ⟨hs.memWf, hs.cacheInv⟩
  | halt => obtain rfl := execHalt_next h; exact ⟨hs.memWf, hs.cacheInv⟩

/-- What R154 rests on, and what lasts until the next store to `a`: cell `a` exists and holds `v`, and the cache
agrees with Memory, so that it does not matter whether `a` is cached. -/
structure CellHolds (a : Nat) (v : Word) (s : State) : Prop where
  memoryInv : MemoryInv s
  inRange : a < s.memLen
  cell_eq : s.cell a = v

theorem cellHolds_of_exec_store {a r : Nat} {s t : State} (hs : MemoryInv s) (h : exec (.store a r) s = .next t) :
    CellHolds a (s.reg r) t := by
  have ht := exec_memoryInv hs h
  obtain ⟨-, ha, c, -, rfl⟩ := execStore_next h
  exact ⟨ht, ha, Memory.read_write_same hs.memWf a (s.reg r)⟩

theorem CellHolds.after_exec {i : Instr} {a : Nat} {v : Word} {s t : State} (hs : CellHolds a v s)
    (hi : storesTo a i = false) (h : exec i s = .next t) : CellHolds a v t := by
  obtain ⟨hmemLen, -, -⟩ := exec_sameParams h
  exact ⟨exec_memoryInv hs.memoryInv h, hmemLen ▸ hs.inRange, (exec_cell_of_not_storesTo h hi).trans hs.cell_eq⟩

theorem CellHolds.after_execAll {is : List Instr} {a : Nat} {v : Word} {s t : State} (hs : CellHolds a v s)
    (his : ∀ i ∈ is, storesTo a i = false) (h : execAll is s = .next t) : CellHolds a v t := by
  induction is generalizing s with
  | nil => cases h; exact hs
  | cons i is ih =>
    obtain ⟨hi, his⟩ := List.forall_mem_cons.1 his
    obtain ⟨u, hexec, h⟩ := andThen_eq_next.1 h
    exact ih (hs.after_exec hi hexec) his h

/-! ### `Load` and `Store` complete as their cache access does (R152, R153) -/

section Completes
variable {a d r : Nat} {s : State}

theorem execLoad_completes (h : CacheInv s.memLen s.mem s.cache) (hd : d < 32) (ha : a < s.memLen) :
    ∃ c, execLoad d a s = .next ((s.setCache c).setReg d (s.cell a)).advance ∧
      c.queue = afterAccess s.C a (s.cell a) s.cache.queue := by
  obtain ⟨c, hload, -, -, hqueue, -⟩ := cacheLoad_ok h ha
  exact ⟨c, by simp [execLoad, checkRegisters_ok, hd, hload], hqueue⟩

theorem execStore_completes (hs : MemoryInv s) (hr : r < 32) (ha : a < s.memLen) :
    ∃ c, execStore a r s = .next ((s.setMem (Memory.write s.mem a (s.reg r))).setCache c).advance ∧
      c.queue = afterAccess s.C a (s.reg r) s.cache.queue := by
  obtain ⟨c, hstore, -, -, hqueue, -⟩ := cacheStore_ok (s.reg r) hs.memWf hs.cacheInv ha
  exact ⟨c, by simp [execStore, checkRegisters_ok, hr, hstore], hqueue⟩

end Completes

/-- Settles O19: the store makes cell `a` hold the value, the instructions between keep it so, and the load reads
the cell through whatever cache they leave. -/
theorem storeThenLoadReturnsStoredValue : Obligations.StoreThenLoadReturnsStoredValue := by
  intro a r d js s s1 s2 hs hd hstore hjs hrun
  have hcell : CellHolds a (s.reg r) s2 := (cellHolds_of_exec_store hs.memoryInv hstore).after_execAll hjs hrun
  obtain ⟨c, hload, -⟩ := execLoad_completes hcell.memoryInv.cacheInv hd hcell.inRange
  exact ⟨_, hload, (State.reg_setReg_same (s2.setCache c) d _ hd).trans hcell.cell_eq⟩

/-- Settles O17: the access of `Load` gives the value and the recency law; the frame and the counters are those of
every instruction. -/
theorem loadReturnsCellValue : Obligations.LoadReturnsCellValue := by
  refine ⟨fun d a hd ha => ?word, fun d a s hs hd ha => ?completes,
    fun d a s hd => execLoad_fault.2 (.inl ⟨rfl, hd⟩), fun d a s hs hd ha => execLoad_outOfBounds hs hd ha⟩
  case word => exact encode_of_wellFormed (wellFormed_load.2 ⟨hd, ha⟩)
  case completes =>
    obtain ⟨c, hexec, hqueue⟩ := execLoad_completes hs.cacheInv hd ha
    obtain ⟨-, hframe, -⟩ := frameOfEveryInstruction s ((s.setCache c).setReg d (s.cell a)).advance
    obtain ⟨hregs, -, hsystem⟩ := hframe d a hexec
    obtain ⟨-, hcounts⟩ := eachAccessCountsOnce (.load d a) s _ hexec
    obtain ⟨hhit, hmiss, -⟩ := hcounts a rfl
    exact ⟨_, hexec, State.reg_setReg_same (s.setCache c) d _ hd, hregs, rfl, rfl, hqueue, hhit, hmiss, hsystem⟩

/-- Settles O18: the access of `Store` gives the recency law, the write rule of Memory the cell; the frame and the
counters are those of every instruction. -/
theorem storeWritesCellAndCache : Obligations.StoreWritesCellAndCache := by
  refine ⟨fun a r hr ha => ?word, fun a r s hs hr ha => ?completes,
    fun a r s hr => execStore_fault.2 (.inl ⟨rfl, hr⟩), fun a r s hr ha => execStore_fault.2 (.inr ⟨rfl, hr, ha⟩)⟩
  case word => exact encode_of_wellFormed (wellFormed_store.2 ⟨hr, ha⟩)
  case completes =>
    obtain ⟨c, hexec, hqueue⟩ := execStore_completes hs.memoryInv hr ha
    obtain ⟨-, -, hframe, -⟩ :=
      frameOfEveryInstruction s ((s.setMem (Memory.write s.mem a (s.reg r))).setCache c).advance
    obtain ⟨-, hcells, hsystem⟩ := hframe a r hexec
    obtain ⟨-, hcounts⟩ := eachAccessCountsOnce (.store a r) s _ hexec
    obtain ⟨hhit, hmiss, -⟩ := hcounts a rfl
    exact ⟨_, hexec, Memory.read_write_same hs.memWf a (s.reg r), hcells, rfl, rfl, hqueue, hhit, hmiss, hsystem⟩

end Sys2Proof.Machine
end

section
/-! SUPPORT. Family 43_control.md: the word, the effect and the fault of `Jump` (R161), and the word and the
effect of `Halt`, after which nothing changes (R163). -/

namespace Sys2Proof.Machine

/-- A target inside the program passes the check, and `pc` becomes the target (R161). -/
theorem execJump_ok {t : Nat} {s : State} (ht : t < s.N) : execJump t s = .next (s.jumpTo t) := by
  simp [execJump, checkTarget, ht]

/-- Settles O29: the target check decides between the two outcomes, and `Jump` writes `pc` only. -/
theorem jumpSetsPcWithinProgram : Obligations.JumpSetsPcWithinProgram := by
  refine ⟨fun t ht => ?word, fun t s ht => ?completes, fun t s ht => execJump_fault.2 ⟨rfl, ht⟩⟩
  case word => exact encode_of_wellFormed (wellFormed_jump.2 ht)
  case completes => exact ⟨s.jumpTo t, execJump_ok ht, rfl, rfl, rfl, rfl, rfl, rfl, rfl, rfl, rfl⟩

/-- A word with the opcode of `Halt` is illegal when a lower bit is set (R99). -/
theorem decode_of_haltLowBits {w : InstrWord} (hop : field w 24 8 = 6) (hlow : field w 0 24 ≠ 0) :
    decode w = .error .haltLowBitsSet := by
  simp [decode, hop, hlow]

/-- Settles O30: `Halt` writes `run` only, and a halted machine is stopped, so no step and no turn changes it. -/
theorem haltStopsForGood : Obligations.HaltStopsForGood := by
  refine ⟨encode_of_wellFormed wellFormed_halt, fun w hop hlow => ?illegal, fun s => ?effect⟩
  case illegal =>
    rw [← field_opcode] at hop
    rw [← field_zero] at hlow
    exact decode_of_haltLowBits hop hlow
  case effect =>
    have hstopped : s.halt.stopped := .inl rfl
    exact ⟨s.halt, execHalt_ok s, rfl, rfl, rfl, rfl, rfl, rfl, ⟨rfl, rfl, rfl⟩, step_of_stopped hstopped,
      runFor_of_ended (stopReason_ne_none_of_stopped hstopped)⟩

end Sys2Proof.Machine
end

section
/-! SUPPORT. Family 60_exceptions.md: the causes of each fault (R171 to R174), their order (R179) and codes (R175),
that a fault changes nothing but the report and ends the run (R176, R177), and the host's register access (R183). -/

namespace Sys2Proof.Machine

/-! ### The causes of each fault (R171 to R174) -/

/-- When instruction `i` faults in state `s` with kind `k`, by the checks it makes (R124, R161). -/
def FaultCause (s : State) (k : Fault) (i : Instr) : Prop :=
  match i with
  | .add d s1 s2 => k = .invalidRegister ∧ (32 ≤ d ∨ 32 ≤ s1 ∨ 32 ≤ s2)
  | .sub d s1 s2 => k = .invalidRegister ∧ (32 ≤ d ∨ 32 ≤ s1 ∨ 32 ≤ s2)
  | .load d a => (k = .invalidRegister ∧ 32 ≤ d) ∨
      (k = .outOfBounds ∧ d < 32 ∧ s.cache.lookup a = none ∧ s.memLen ≤ a)
  | .store a r => (k = .invalidRegister ∧ 32 ≤ r) ∨ (k = .outOfBounds ∧ r < 32 ∧ s.memLen ≤ a)
  | .jump t => k = .invalidJumpTarget ∧ s.N ≤ t
  | .halt => False

/-- An instruction faults exactly for the causes listed, in any state. -/
theorem exec_fault_iff {i : Instr} {s : State} {k : Fault} : exec i s = .fault k ↔ FaultCause s k i := by
  cases i with
  | add d s1 s2 => exact registerOp_fault
  | sub d s1 s2 => exact registerOp_fault
  | load d a => exact execLoad_fault
  | store a r => exact execStore_fault
  | jump t => exact execJump_fault
  | halt => simp [exec, execHalt_ok, FaultCause]

/-- No slot holds an address out of range (I2). -/
theorem CacheInv.lookup_of_outOfRange {n : Nat} {m : Memory} {c : Cache} (h : CacheInv n m c) {a : Nat}
    (ha : n ≤ a) : c.lookup a = none :=
  Cache.lookup_eq_none fun _ _ hi haddr => absurd (haddr ▸ h.slot_lt hi) ha.not_gt

/-- Under the invariant an address out of range is never a cache hit, so a load checks the bound always (R171). -/
theorem exec_outOfBounds_iff {i : Instr} {s : State} (hs : StateInv s) : exec i s = .fault .outOfBounds ↔
    (∃ d a, i = .load d a ∧ d < 32 ∧ s.memLen ≤ a) ∨ (∃ a r, i = .store a r ∧ r < 32 ∧ s.memLen ≤ a) := by
  rw [exec_fault_iff]
  cases i with
  | load d a =>
    have hmiss : s.cache.lookup a = none ∧ s.memLen ≤ a ↔ s.memLen ≤ a :=
      and_iff_right_of_imp hs.cacheInv.lookup_of_outOfRange
    simp [FaultCause, hmiss]
  | store a r => simp [FaultCause]
  | add d s1 s2 => simp [FaultCause]
  | sub d s1 s2 => simp [FaultCause]
  | jump t => simp [FaultCause]
  | halt => simp [FaultCause]

/-- One bad index suffices, source or destination, and the address plays no part (R172, R179). -/
theorem exec_invalidRegister_iff {i : Instr} {s : State} : exec i s = .fault .invalidRegister ↔
    (∃ d s1 s2, (i = .add d s1 s2 ∨ i = .sub d s1 s2) ∧ (32 ≤ d ∨ 32 ≤ s1 ∨ 32 ≤ s2)) ∨
    (∃ d a, i = .load d a ∧ 32 ≤ d) ∨ (∃ a r, i = .store a r ∧ 32 ≤ r) := by
  rw [exec_fault_iff]
  cases i <;> simp [FaultCause]

/-- `Jump` alone checks a target (R173). -/
theorem exec_invalidJumpTarget_iff {i : Instr} {s : State} :
    exec i s = .fault .invalidJumpTarget ↔ ∃ t, i = .jump t ∧ s.N ≤ t := by
  rw [exec_fault_iff]
  cases i <;> simp [FaultCause]

theorem exec_ne_illegalInstruction (i : Instr) (s : State) : exec i s ≠ .fault .illegalInstruction := by
  rw [Ne, exec_fault_iff]
  cases i <;> simp [FaultCause]

theorem step_fault_of_instr {s : State} {k : Fault} (h : step s = .fault k) (hk : k ≠ .illegalInstruction) :
    ∃ i, fetch s = .instr i ∧ exec i s = .fault k := by
  rcases step_fault h with ⟨-, -, hill⟩ | hinstr
  · exact absurd hill hk
  · exact hinstr

/-- An illegal word is the step's fault and no instruction's (R174). -/
theorem step_illegalInstruction_iff {s : State} :
    step s = .fault .illegalInstruction ↔ ∃ why, fetch s = .illegal why := by
  constructor
  · intro h
    rcases step_fault h with ⟨why, hfetch, -⟩ | ⟨i, -, hexec⟩
    · exact ⟨why, hfetch⟩
    · exact absurd hexec (exec_ne_illegalInstruction i s)
  · rintro ⟨why, hfetch⟩
    exact step_of_illegal hfetch

/-! ### The host's register access (R183) -/

theorem readRegister_bad {s : State} {i : Nat} (hi : 32 ≤ i) : readRegister s i = .error .invalidRegister :=
  if_neg hi.not_gt

theorem readRegister_ok {s : State} {i : Nat} (hi : i < 32) : readRegister s i = .ok (s.reg i) := if_pos hi

theorem writeRegister_bad {s : State} {i : Nat} (v : Word) (hi : 32 ≤ i) :
    writeRegister s i v = .error .invalidRegister := if_neg hi.not_gt

theorem writeRegister_ok {s : State} {i : Nat} (v : Word) (hi : i < 32) :
    writeRegister s i v = .ok (s.setReg i v) := if_pos hi

/-- Settles O13: one bound decides, and a good write is `setReg`. -/
theorem hostRegisterAccessIsBoundsChecked : Obligations.HostRegisterAccessIsBoundsChecked :=
  ⟨fun _ _ v hi => ⟨readRegister_bad hi, writeRegister_bad v hi⟩, fun _ _ hi => readRegister_ok hi,
    fun s i v hi => ⟨s.setReg i v, writeRegister_ok v hi, s.reg_setReg_same i v hi,
      fun r hr => s.reg_setReg_other i r v hr, rfl, rfl, rfl, rfl, rfl, rfl, rfl, rfl⟩⟩

/-- Settles O42: the causes of each kind are read off one list of what makes an instruction fault. -/
theorem causesOfEachFault : Obligations.CausesOfEachFault :=
  ⟨fun i s hs => ⟨exec_outOfBounds_iff hs, exec_invalidRegister_iff, exec_invalidJumpTarget_iff,
      exec_ne_illegalInstruction i s⟩,
    fun _ _ h hk => step_fault_of_instr h hk, fun _ => step_illegalInstruction_iff,
    fun _ _ v hi => ⟨readRegister_bad hi, writeRegister_bad v hi⟩⟩

/-- Settles O43: the register check comes first, so the address plays no part. -/
theorem registerFaultTakesPriority : Obligations.RegisterFaultTakesPriority :=
  fun _ _ _ hr _ => ⟨execLoad_fault.2 (.inl ⟨rfl, hr⟩), execStore_fault.2 (.inl ⟨rfl, hr⟩)⟩

/-! ### What a fault leaves (R175 to R177) -/

/-- The turn of a faulting step writes the fault report and nothing else. -/
theorem exists_report_of_step_fault {s : State} {k : Fault} (h : step s = .fault k) :
    ∃ r, s.request = s.setLastFault r := by
  rcases request_of_fault h with hsame | hrecorded
  · exact ⟨s.lastFault, hsame⟩
  · exact ⟨some k, hrecorded⟩

/-- Settles O44: the report is none of the fields the rule names. -/
theorem faultsArePrecise : Obligations.FaultsArePrecise := by
  intro s k h
  obtain ⟨r, hrequest⟩ := exists_report_of_step_fault h
  rw [hrequest]
  exact ⟨rfl, rfl, rfl, rfl, rfl, rfl, rfl, rfl, rfl, rfl, rfl⟩

/-- Only a machine that is not stopped can fault (R121). -/
theorem running_of_step_fault {s : State} {k : Fault} (h : step s = .fault k) : s.run = .running ∧ s.pc < s.N := by
  have hlive : ¬ s.stopped := fun hstopped => by simp [step_of_stopped hstopped] at h
  obtain ⟨hrun, hpc⟩ := not_or.1 hlive
  refine ⟨?_, Nat.lt_of_not_le hpc⟩
  cases hr : s.run with
  | running => rfl
  | halted => exact absurd hr hrun

/-- Settles O45: the faulting machine was live, so the loop takes the step and records its fault; a machine with a
recorded fault has ended. -/
theorem runStopsAtItsFirstFault : Obligations.RunStopsAtItsFirstFault := by
  intro s k h hreport
  obtain ⟨hrun, hpc⟩ := running_of_step_fault h
  have hrequest : s.request = s.setLastFault (some k) := by
    rw [request_of_live (stopReason_none.2 ⟨hrun, hpc, hreport⟩), h]
    rfl
  have hstop : (s.setLastFault (some k)).stopReason = some (.faulted k) := stopReason_faulted.2 ⟨hrun, hpc, rfl⟩
  rw [hrequest]
  exact ⟨rfl, hrun, hstop, runFor_of_ended (hstop.trans_ne (Option.some_ne_none _))⟩

/-- Settles O46: neither the fetch nor a meaning reads the report. -/
theorem reissuedStepFaultsAgain : Obligations.ReissuedStepFaultsAgain :=
  fun _ _ r h => step_fault_setLastFault r h

/-- Settles O47: the table of R175. -/
theorem causeCodes : Obligations.CauseCodes := ⟨rfl, rfl, rfl, rfl, rfl⟩

end Sys2Proof.Machine
end

section
/-! SUPPORT. Family 70_reset_and_hazards.md: the state after reset (R201, R203), reset applied again (R200), a word
placed for the next fetch (R204), and what makes a run fault-free (R206). -/

namespace Sys2Proof.Machine

/-! ### A run faults exactly where its path leaves the bounds (R206, R184) -/

section FaultFree
variable {s : State}

/-- Under the invariant an instruction has a cause to fault exactly when a field of it is out of bounds: the cache
holds no address out of range, so what it holds plays no part. -/
theorem exists_faultCause_iff (hs : StateInv s) (i : Instr) :
    (∃ k, FaultCause s k i) ↔ inBounds s.memLen s.N i = false := by
  cases i with
  | add d s1 s2 => simp [FaultCause, inBounds, imp_iff_not_or, or_assoc]
  | sub d s1 s2 => simp [FaultCause, inBounds, imp_iff_not_or, or_assoc]
  | load d a =>
    have hmiss : s.cache.lookup a = none ∧ s.memLen ≤ a ↔ s.memLen ≤ a :=
      and_iff_right_of_imp hs.cacheInv.lookup_of_outOfRange
    rcases Nat.lt_or_ge d 32 with hd | hd
    · simp [FaultCause, inBounds, hmiss, hd, hd.not_ge]
    · simp [FaultCause, inBounds, hd, hd.not_gt]
  | store a r =>
    rcases Nat.lt_or_ge r 32 with hr | hr
    · simp [FaultCause, inBounds, hr, hr.not_ge]
    · simp [FaultCause, inBounds, hr, hr.not_gt]
  | jump t => simp [FaultCause, inBounds]
  | halt => simp [FaultCause, inBounds]

theorem exists_exec_fault_iff (hs : StateInv s) (i : Instr) :
    (∃ k, exec i s = .fault k) ↔ inBounds s.memLen s.N i = false := by
  simp only [exec_fault_iff, exists_faultCause_iff hs]

theorem retire_eq_fault {r : Result State} {k : Fault} : retire r = .fault k ↔ r = .fault k := by
  cases r <;> simp [retire]

/-- A step faults exactly when what it finds at `pc` is illegal or out of bounds (R123, R174). -/
theorem exists_step_fault_iff (hs : StateInv s) :
    (∃ k, step s = .fault k) ↔ fetchedInBounds s.memLen s.N (fetch s) = false := by
  cases hf : fetch s with
  | idle => simp [step_of_stopped (fetch_idle.1 hf), fetchedInBounds]
  | illegal why => simp [step_of_illegal hf, fetchedInBounds]
  | instr i =>
    simp only [step_of_instr hf, retire_eq_fault]
    exact exists_exec_fault_iff hs i

/-- A step that completes reports no fault, whether it ran an instruction or found none. -/
theorem lastFault_of_step_next {t : State} (hreport : s.lastFault = none) (h : step s = .next t) :
    t.lastFault = none := by
  rcases step_next h with ⟨-, rfl⟩ | ⟨i, u, -, -, rfl⟩
  · exact hreport
  · rfl

/-- One turn of a live machine records no fault exactly when its instruction is legal and in bounds. -/
theorem request_lastFault_eq_none_iff (hs : StateInv s) (hlive : s.stopReason = none) :
    s.request.lastFault = none ↔ fetchedInBounds s.memLen s.N (fetch s) = true := by
  obtain ⟨-, -, hreport⟩ := stopReason_none.1 hlive
  have hfault := exists_step_fault_iff hs
  rw [request_of_live hlive, ← Bool.not_eq_false, ← hfault]
  cases hstep : step s with
  | next t => simp [settle, lastFault_of_step_next hreport hstep]
  | fault k => simp [settle]
  | refused q => exact absurd hstep (step_ne_refused hs q)

/-- The same of the turn after `n`, the bounds being those of the start: no turn changes them. -/
theorem runFor_succ_lastFault_eq_none_iff (hs : StateInv s) {n : Nat} (hlive : (s.runFor n).stopReason = none) :
    (s.runFor (n + 1)).lastFault = none ↔ fetchedInBounds s.memLen s.N (fetch (s.runFor n)) = true := by
  obtain ⟨hmemLen, -, -⟩ := runFor_sameParams s n
  rw [runFor_succ, request_lastFault_eq_none_iff (runFor_stateInv hs n) hlive, hmemLen, runFor_N]

/-- Every instruction that the run comes to execute is legal and in bounds. -/
def PathInBounds (s : State) : Prop :=
  ∀ n, (s.runFor n).stopReason = none → fetchedInBounds s.memLen s.N (fetch (s.runFor n)) = true

theorem faultFree_of_pathInBounds (hs : StateInv s) (hreport : s.lastFault = none) (h : PathInBounds s) (n : Nat) :
    (s.runFor n).lastFault = none := by
  induction n with
  | zero => exact hreport
  | succ n ih =>
    by_cases hlive : (s.runFor n).stopReason = none
    · exact (runFor_succ_lastFault_eq_none_iff hs hlive).2 (h n hlive)
    · rwa [runFor_succ, request_of_ended hlive]

theorem pathInBounds_of_faultFree (hs : StateInv s) (h : ∀ n, (s.runFor n).lastFault = none) : PathInBounds s :=
  fun n hlive => (runFor_succ_lastFault_eq_none_iff hs hlive).1 (h (n + 1))

/-- Whatever a machine fetches from a program that is in bounds throughout is legal and in bounds. -/
theorem fetchedInBounds_of_programInBounds {memLen : Nat} (h : programInBounds memLen s.program = true) :
    fetchedInBounds memLen s.N (fetch s) = true := by
  cases hrun : s.run with
  | halted =>
    rw [fetch_idle.2 (.inl hrun)]
    rfl
  | running =>
    rcases Nat.lt_or_ge s.pc s.N with hpc | hpc
    · rw [fetch_running hrun]
      exact List.all_eq_true.1 h s.pc (List.mem_range.2 hpc)
    · rw [fetch_idle.2 (.inr hpc)]
      rfl

theorem pathInBounds_of_programInBounds (h : programInBounds s.memLen s.program = true) : PathInBounds s := by
  intro n _
  obtain ⟨-, hprogram, -⟩ := runFor_sameParams s n
  rw [← runFor_N s n]
  exact fetchedInBounds_of_programInBounds (hprogram ▸ h)

end FaultFree

/-- Settles O48: a turn records a fault exactly when its instruction is illegal or out of bounds, and a program in
bounds throughout leads no path elsewhere. -/
theorem runIsFaultFreeIffPathInBounds : Obligations.RunIsFaultFreeIffPathInBounds :=
  ⟨fun _ hs hreport => ⟨pathInBounds_of_faultFree hs, faultFree_of_pathInBounds hs hreport⟩,
    fun _ hs hreport h => faultFree_of_pathInBounds hs hreport (pathInBounds_of_programInBounds h)⟩

/-! ### Reset applied again (R200, D23) -/

theorem params_eq_of_sameParams {s t : State} (h : SameParams s t) : t.params = s.params := by
  obtain ⟨hmemLen, hprogram, hcapacity⟩ := h
  rw [State.params, State.params, hmemLen, hprogram, hcapacity]

theorem State.resetWith_C (p : Config.Params) : (State.resetWith p).C = p.capacity := List.length_replicate

theorem State.resetWith_params (p : Config.Params) : (State.resetWith p).params = p := by
  rw [State.params, State.resetWith_C]
  rfl

theorem writeRegister_eq_ok {s t : State} {i : Nat} {v : Word} (h : writeRegister s i v = .ok t) :
    t = s.setReg i v := by
  rcases Nat.lt_or_ge i 32 with hi | hi
  · cases (writeRegister_ok v hi).symm.trans h
    rfl
  · cases (writeRegister_bad v hi).symm.trans h

/-- Settles O10: reset reads the parameters only, and neither a run nor a register write changes them. -/
theorem resetAgainForgetsTheRun : Obligations.ResetAgainForgetsTheRun := by
  refine ⟨fun s n => ?_, State.resetWith_params, fun s t i v h => ?_⟩
  · rw [State.reboot, params_eq_of_sameParams (runFor_sameParams s n)]
  · rw [writeRegister_eq_ok h]
    rfl

/-! ### The state after reset (R201, R203) -/

theorem State.resetWith_reg (p : Config.Params) {r : Nat} (hr : r < 32) :
    (State.resetWith p).reg r = 0#Config.XLEN := by
  simp [State.reg, State.resetWith, hr]

theorem State.resetWith_slotAt (p : Config.Params) (i : Nat) : (State.resetWith p).cache.slotAt i = none := by
  by_cases hi : i < p.capacity <;> simp [Cache.slotAt, State.resetWith, hi]

/-- Settles O5: the registers, the slots and the capacity by a lemma each, the rest as `resetWith` writes it. -/
theorem resetValuesOfAllState : Obligations.ResetValuesOfAllState := fun p =>
  ⟨fun _ hr => State.resetWith_reg p hr, rfl, rfl, Memory.read_nil, State.resetWith_slotAt p, rfl, rfl, rfl, rfl, rfl,
    State.resetWith_C p, rfl⟩

theorem resetWith_stateInv {p : Config.Params} (h : p.program.length < Config.programBound) :
    StateInv (State.resetWith p) where
  memWf := Memory.wf_nil
  memBelow := nofun
  cacheInv := CacheInv.empty p.memLen [] p.capacity 0 0
  pcInRange := Nat.zero_le _
  programBound := h

/-- Settles O6: Memory and the cache are empty, and `pc` is 0. -/
theorem resetMeetsInvariant : Obligations.ResetMeetsInvariant :=
  ⟨fun _ h => resetWith_stateInv h, resetWith_stateInv (p := Config.launch) (by decide)⟩

/-! ### A word placed where the machine fetches next (log 2, log 25) -/

/-- What stands before the placed word fills indices 0 to `k - 1`, whether the program is longer than `k` or not. -/
theorem exists_words_of_withWord (p : Program) (k : Nat) (w : InstrWord) :
    ∃ ws, Program.withWord p k w = .words ws ∧ ws[k]? = some w := by
  have hlen : ((Program.asWords p).take k ++ List.replicate (k - (Program.asWords p).length) 0).length = k := by
    rw [List.length_append, List.length_take, List.length_replicate]
    omega
  refine ⟨_, rfl, ?_⟩
  rw [List.getElem?_append_right hlen.le, hlen, Nat.sub_self, List.getElem?_cons_zero]

theorem tableWord_eq_ofNat {w : Nat} (hw : w < 2 ^ 32) : tableWord 32 w = BitVec.ofNat 32 w := by
  rw [tableWord, Nat.mod_eq_of_lt hw]

theorem fetch_withFetchWord (s : State) {nbits w : Nat} {i : Instr} (h : decode (tableWord nbits w) = .ok i) :
    fetch (s.withFetchWord nbits w) = .instr i := by
  obtain ⟨ws, hprogram, hw⟩ := exists_words_of_withWord s.program s.pc (tableWord nbits w)
  exact fetch_of_legal rfl hprogram hw h

/-- Settles O34: the placed word stands at `pc` of a running machine, and only the program and `run` were set. -/
theorem placedWordRunsNext : Obligations.PlacedWordRunsNext := by
  intro s w i hw hdec
  have hfetch : fetch (s.withFetchWord 32 w) = .instr i := fetch_withFetchWord s (by rwa [tableWord_eq_ofNat hw])
  exact ⟨hfetch, step_of_instr hfetch, rfl, rfl, rfl, rfl⟩

end Sys2Proof.Machine
end
